-- ==== Sys2Proof/Word.lean ====
section
/-! DEFINITION. Word.lean: the machine's one data width.

Every datum of the machine is one unsigned byte (R11, R21, R40, R44): a memory cell, the value a
register slot holds, an opcode, an operand. Addresses and the program counter are natural numbers
whose arithmetic is exact and never wraps (R11, R28), so they are `Nat` and no word type stands
for them. -/

namespace Sys2Proof

/-- A byte, an unsigned value 0..255 (R11). Bit 0 is the least significant bit (R10). -/
abbrev Byte := BitVec 8

end Sys2Proof
end

