-- ==== Sys2Proof/Config.lean ====
section
/-! DEFINITION. Config.lean: what is fixed for this hardware (the parameter table of R9), and what
the spec leaves open.

The parameters carry the spec's own values. The two constants without a body are free values: the
spec says that the host's renderer chooses them and that no rule depends on them (R101, R105), so
nothing in Lean can evaluate them (notes/assumptions/6.md). -/

namespace Sys2Proof.Config

/-- `MEM_SIZE`: the number of memory cells, and the first address that does not exist (R9, R40). -/
@[simp] abbrev memSize : Nat := 256

/-- `NUM_REGS`: the number of register slots, and the first index that does not exist (R9, R21). -/
@[simp] abbrev numRegs : Nat := 8

/-- `SP_INDEX`: the slot that is the stack pointer (R9, R22). -/
@[simp] abbrev spIndex : Fin 8 := 7

/-- `SP_INIT`: the value of the stack pointer at reset, 0xF4 = 244 for this hardware (R9, D13). -/
@[simp] abbrev spInit : Byte := 0xF4#8

/-- The program counter at reset (R36). -/
@[simp] abbrev pcReset : Nat := 0

/-- `LOAD_ADDR`: where `load` places the program's first byte (R9, R212). -/
@[simp] abbrev loadAddr : Nat := 0

/-- `HAS_MUL`: whether 0xA2 is MUL; true for this hardware (R9, D2). -/
@[simp] abbrev hasMul : Bool := true

/-- Free value (DESIGN CHOICE, safe, notes/assumptions/6.md): the text the renderer shows for a
`Shutdown` event. "The host's renderer chooses its text, and no rule depends on it" (R101). -/
opaque shutdownText : List Char

/-- Free value (DESIGN CHOICE, safe, notes/assumptions/6.md): what the renderer puts between two
outputs, "the renderer's choice and not part of the core" (R105). -/
opaque outputSeparator : List Char

end Sys2Proof.Config
end

