-- ==== Sys2Proof/Syntax.lean ====
section
/-! DEFINITION. Syntax.lean: the nine instructions (R3), one constructor per row of
spec/opcode_table.json, and the operations the ALU is asked for.

An operand is one raw byte (R64): a register operand is the whole byte, not masked to three bits,
and values 8..255 are operands too (they fault when the instruction uses them); an immediate is
the byte as it is. So every value of `Instr` is an instruction some bytes encode. -/

namespace Sys2Proof

inductive Instr where
  /-- HLT: halt (R100). -/
  | hlt
  /-- LDI r, i: load the immediate byte `i` into register `r` (R102). -/
  | ldi (r i : Byte)
  /-- PRN r: emit register `r` to the output sink (R104). -/
  | prn (r : Byte)
  /-- ADD ra, rb: register `ra` becomes the sum modulo 256 (R124). -/
  | add (ra rb : Byte)
  /-- MUL ra, rb: register `ra` becomes the product modulo 256 (R125). -/
  | mul (ra rb : Byte)
  /-- PUSH r: push register `r` on the stack (R141). -/
  | push (r : Byte)
  /-- POP r: pop the top of the stack into register `r` (R142). -/
  | pop (r : Byte)
  /-- CALL r: call the subroutine whose address register `r` holds (R160). -/
  | call (r : Byte)
  /-- RET: return from a subroutine (R162). -/
  | ret
  deriving DecidableEq, Repr

/-- An operation asked of the `alu` block (R120). The supported set is {ADD, MUL} (R123), and the
decoder routes only these; `other` stands for an operation outside it, which no program can ask
for (R122, notes/assumptions/5.md). -/
inductive AluOp where
  | add
  | mul
  | other (code : Byte)
  deriving DecidableEq, Repr

/-- The instruction's operand bytes that name a register, in the order of its encoding (the operand
table of R64). -/
def Instr.regOperands : Instr → List Byte
  | .hlt => []
  | .ldi r _ => [r]
  | .prn r => [r]
  | .add ra rb => [ra, rb]
  | .mul ra rb => [ra, rb]
  | .push r => [r]
  | .pop r => [r]
  | .call r => [r]
  | .ret => []

end Sys2Proof
end

