-- ==== Sys2Proof/Decode.lean ====
section
/-! DEFINITION. Decode.lean: the `decoder` block (R83, R84), the decoding of a byte sequence, and the
encoder (R72).

The decoder dispatches on the whole opcode byte (R70) and reads the operand count and the suppress
flag from its bits alone (R62, R63). -/

namespace Sys2Proof

/-- The closed set of operations the decoder routes to (R70, R83): its output `ins`, ILLEGAL aside. -/
inductive Op where
  | hlt | ldi | prn | add | mul | push | pop | call | ret
  deriving DecidableEq, Repr

/-- The operand count `n = op[7:6]`, a value 0..3, of any byte, legal or not (R62). -/
def operandCount (op : Byte) : Nat := (op.extractLsb' 6 2).toNat

/-- The suppress flag `s = op[4]`: the instruction sets the pc itself (R63). -/
def suppressFlag (op : Byte) : Bool := op.getLsbD 4

/-- The decoder's `ins` output (R84): the operation bound to an opcode byte, or `none` for ILLEGAL.
0xA2 is bound only where the hardware has MUL (`HAS_MUL`, R9, D2). -/
def boundOp (op : Byte) : Option Op :=
  if op = 0x01#8 then some .hlt
  else if op = 0x82#8 then some .ldi
  else if op = 0x47#8 then some .prn
  else if op = 0xA0#8 then some .add
  else if op = 0xA2#8 then (if Config.hasMul then some .mul else none)
  else if op = 0x45#8 then some .push
  else if op = 0x46#8 then some .pop
  else if op = 0x50#8 then some .call
  else if op = 0x11#8 then some .ret
  else none

/-- The ALU operation of an operation the decoder routes to the ALU (R70, R83): ADD and MUL, and no
other operation has one. -/
def Op.aluOp : Op → Option AluOp
  | .add => some .add
  | .mul => some .mul
  | .hlt | .ldi | .prn | .push | .pop | .call | .ret => none

/-- What the decoder outputs for an opcode byte (R83): `n`, `s`, `ins`, and, for ADD and MUL, the
`alu_op` it hands to the ALU. -/
structure Decoded where
  n : Nat
  s : Bool
  ins : Option Op
  aluOp : Option AluOp
  deriving DecidableEq, Repr

/-- `Decode(op)` (R84): a pure function of the byte that holds no state and cannot fault (R83). -/
def decodeOpcode (op : Byte) : Decoded :=
  { n := operandCount op, s := suppressFlag op, ins := boundOp op, aluOp := (boundOp op).bind Op.aluOp }

/-- The instruction an operation and its operand bytes `o[1], o[2]` make (the operand table of R64).
The fetch unit hands over exactly as many bytes as the operation has operands (R68), so the byte
that stands in for a missing one is never used. -/
def Op.instr (ins : Op) (o : List Byte) : Instr :=
  match ins with
  | .hlt => .hlt
  | .ldi => .ldi (o.getD 0 0) (o.getD 1 0)
  | .prn => .prn (o.getD 0 0)
  | .add => .add (o.getD 0 0) (o.getD 1 0)
  | .mul => .mul (o.getD 0 0) (o.getD 1 0)
  | .push => .push (o.getD 0 0)
  | .pop => .pop (o.getD 0 0)
  | .call => .call (o.getD 0 0)
  | .ret => .ret

/-- Why a byte sequence holds no whole instruction at its start. -/
inductive DecodeReject where
  /-- The sequence is empty: there is no opcode byte. -/
  | noOpcode
  /-- The first byte is one of the 247 bytes no instruction is bound to (R66). -/
  | illegalOpcode (op : Byte)
  /-- The opcode is legal, and fewer operand bytes follow than its operand count says (R68). -/
  | missingOperand (op : Byte)
  deriving DecidableEq, Repr

/-- The instruction at the start of a byte sequence, the opcode first and the operands in ascending
order (R44, R60), with the bytes after it; or the reason there is none. Legality is settled before
the operands are looked at (R91). -/
def decode : List Byte → Except DecodeReject (Instr × List Byte)
  | [] => .error .noOpcode
  | op :: rest =>
    match (decodeOpcode op).ins with
    | none => .error (.illegalOpcode op)
    | some ins =>
      if rest.length < (decodeOpcode op).n then .error (.missingOperand op)
      else .ok (ins.instr (rest.take (decodeOpcode op).n), rest.drop (decodeOpcode op).n)

/-! ## The encoder, from the opcode map of R65 and the encodings of R72 -/

/-- The opcode byte of each operation (the opcode map of R65). PRESUMED, unsafe: the spec takes the
byte values from general knowledge (D3, notes/assumptions/13.md). -/
def Op.byte : Op → Byte
  | .hlt => 0b00000001#8
  | .ldi => 0b10000010#8
  | .prn => 0b01000111#8
  | .add => 0b10100000#8
  | .mul => 0b10100010#8
  | .push => 0b01000101#8
  | .pop => 0b01000110#8
  | .call => 0b01010000#8
  | .ret => 0b00010001#8

/-- The operation of an instruction. -/
def Instr.op : Instr → Op
  | .hlt => .hlt
  | .ldi _ _ => .ldi
  | .prn _ => .prn
  | .add _ _ => .add
  | .mul _ _ => .mul
  | .push _ => .push
  | .pop _ => .pop
  | .call _ => .call
  | .ret => .ret

/-- The operand bytes of an instruction, in the order they follow the opcode (R64, R72). -/
def Instr.operandBytes : Instr → List Byte
  | .hlt => []
  | .ldi r i => [r, i]
  | .prn r => [r]
  | .add ra rb => [ra, rb]
  | .mul ra rb => [ra, rb]
  | .push r => [r]
  | .pop r => [r]
  | .call r => [r]
  | .ret => []

/-- The bytes of an instruction, the first at the lowest address (R72). -/
def encode (i : Instr) : List Byte := i.op.byte :: i.operandBytes

/-! ## The opcode table's numbering -/

/-- The `count` bytes of the number `w`, byte 0 (bits 7..0) first: an instruction's bytes as
spec/opcode_table.json numbers its bits, which is also their order in memory (R44). -/
def bytesOfWord : Nat → Nat → List Byte
  | 0, _ => []
  | count + 1, w => BitVec.ofNat 8 w :: bytesOfWord count (w / 256)

/-- The longest instruction, in bytes (R60). -/
abbrev maxInstrBytes : Nat := 3

/-- The instruction the decoder reads from the bits `w` of an opcode-table row of `nbits` bits, every
bit above them zero; `none` where it refuses. -/
def decodeTableWord (nbits w : Nat) : Option Instr :=
  match decode (bytesOfWord maxInstrBytes (w % 2 ^ nbits)) with
  | .ok (i, _) => some i
  | .error _ => none

end Sys2Proof
end

