-- ==== Sys2Proof/Machine/State.lean ====
section
/-! DEFINITION. Machine/State.lean: the architectural state, "exactly" the six pieces of R20, as plain
data, and the state after reset (R36). Beside it stand the outcomes that are not a next state. -/

namespace Sys2Proof.Machine

/-- The execution engine's state (R29): `Idle` before `run`, `Running`, and the two terminal states. -/
inductive Status where
  | idle | running | halted | faulted
  deriving DecidableEq, Repr

/-- The fault kinds, in the order of their codes (R180). -/
inductive FaultKind where
  | outOfBoundsAddress
  | outOfBoundsRegister
  | illegalInstruction
  | unsupportedAluOperation
  | stackExhausted
  | uninitializedRegister
  /-- The loader's own kind, at the host boundary; never a step's (R182). -/
  | programLoadFailed
  deriving DecidableEq, Repr

/-- The numeric code of a fault kind (R180); 0 means no fault. -/
def FaultKind.code : FaultKind → Nat
  | .outOfBoundsAddress => 1
  | .outOfBoundsRegister => 2
  | .illegalInstruction => 3
  | .unsupportedAluOperation => 4
  | .stackExhausted => 5
  | .uninitializedRegister => 6
  | .programLoadFailed => 7

/-- What a step raises: a fault kind with the detail `info` that R180 records for it. A step never
raises `ProgramLoadFailed` (R182), so that kind is not among them. -/
inductive Cause where
  /-- A memory address outside 0..255, or a CALL return address that does not fit a byte. -/
  | outOfBoundsAddress (addr : Nat)
  /-- A register operand byte of 8 or more, when the instruction uses it. -/
  | outOfBoundsRegister (operand : Byte)
  /-- An opcode with no bound handler. -/
  | illegalInstruction (op : Byte)
  /-- An ALU operation outside the supported set. -/
  | unsupportedAluOperation (op : AluOp)
  /-- The out-of-range value the stack pointer would have taken (R143). -/
  | stackExhausted (value : Int)
  /-- A read of an UNSET register. -/
  | uninitializedRegister (index : Fin 8)
  deriving DecidableEq, Repr

/-- The kind of what was raised (R180). -/
def Cause.kind : Cause → FaultKind
  | .outOfBoundsAddress _ => .outOfBoundsAddress
  | .outOfBoundsRegister _ => .outOfBoundsRegister
  | .illegalInstruction _ => .illegalInstruction
  | .unsupportedAluOperation _ => .unsupportedAluOperation
  | .stackExhausted _ => .stackExhausted
  | .uninitializedRegister _ => .uninitializedRegister

/-- The fault record, the triple (kind, pc, info) of R30 and R184: `cause` is the kind with its info,
`pc` the address of the faulting instruction's opcode. -/
structure FaultRecord where
  cause : Cause
  pc : Nat
  deriving DecidableEq, Repr

/-- An output event (R31, R214). -/
inductive Event where
  /-- `Num(v)`, emitted by PRN. -/
  | num (v : Byte)
  /-- `Shutdown`, emitted by HLT. -/
  | shutdown
  deriving DecidableEq, Repr

/-- The 256 one-byte cells (R40), held as the list of the cells that are not zero, by rising address
(`Memory.wf`). A cell the list does not name holds 0, the reset contents (R36, R49). -/
structure Memory where
  cells : List Host.Cell
  deriving DecidableEq, Repr

/-- What a cell the list does not name holds: zero, the reset contents R36 and R40 give. -/
abbrev Memory.blank : Byte := 0x00#8

/-- The canonical form: every address is one of 0..255, addresses rise strictly, and no entry holds
the value an unlisted cell holds. Two memories in this form with equal cells are equal data. -/
abbrev Memory.wf (m : Memory) : Prop :=
  m.cells.Pairwise (fun c d => c.1 < d.1) ∧ ∀ c ∈ m.cells, c.1 < Config.memSize ∧ c.2 ≠ Memory.blank

/-- The architectural state of one machine instance (R20). -/
structure State where
  /-- The flat memory (R35, R40). -/
  mem : Memory
  /-- The register file R0..R7: a byte, or `none` for the spec's own marker UNSET (R21, R34). -/
  regs : Vector (Option Byte) 8
  /-- The program counter, a natural number that never wraps (R27, R28). -/
  pc : Nat
  /-- The execution engine's state (R29). -/
  status : Status
  /-- `none` until a step faults, then the fault record (R30). -/
  fault : Option FaultRecord
  /-- Everything emitted to the output sink, oldest first (R31). -/
  out : List Event
  deriving DecidableEq, Repr

/-- The state after construction (R36, R210): memory zero, R0..R6 UNSET, R7 = `SP_INIT`, pc 0, Idle,
no fault, nothing emitted. -/
def State.reset : State where
  mem := ⟨[]⟩
  regs := (Vector.replicate 8 none).set Config.spIndex (some Config.spInit)
  pc := Config.pcReset
  status := .idle
  fault := none
  out := []

/-- Why the machine has no step. In each of these states "the engine has no step" (R89). -/
inductive Fault where
  /-- Raised by `step` alone, in Idle: the engine waits for the host's `run` (R89, R213). Safe: the
  hardware too executes nothing here. -/
  | waitsForRun
  /-- Raised by `step` alone, in Halted, which is terminal (R29, R89, R94). Safe: the hardware too
  executes nothing here. -/
  | hasHalted
  /-- Raised by `step` alone, in Faulted, which is terminal (R29, R89, R187); it carries the fault
  record the engine surfaces (R184), `none` only in a state no run reaches. Safe: the hardware too
  executes nothing here. -/
  | hasFaulted (record : Option FaultRecord)
  deriving DecidableEq, Repr

/-- What is turned away. No instruction is: every arm of `exec` has a meaning. -/
inductive Refusal where
  /-- An instruction without a meaning yet, in `exec`'s arm only (none is left). Safe. -/
  | notModelled (mnemonic : String)
  /-- Raised by the host's `load` when the status is not Idle (R212, D18). Safe. -/
  | loadNotIdle
  /-- Raised by the host's second `load` of one instance (R212, D18). Safe. -/
  | loadedBefore
  /-- Raised by the host's `load` of more than 256 bytes (R212, D18). Safe. -/
  | loadTooLong
  /-- Raised by the host's `run` when the status is not Idle (R213, D18). Safe. -/
  | runNotIdle
  deriving DecidableEq, Repr

end Sys2Proof.Machine
end

