-- ==== Sys2Proof/Machine/Ops.lean ====
section
/-! DEFINITION. Machine/Ops.lean: the named operations every meaning is written over: memory, register
slots, the stack pointer's bounds, the program counter, the output sink, fault entry, and the
commit of a step.

A meaning computes in `Except Cause`: it threads the values it has assigned so far and `raise`s by
`.error` (R12). `commit` makes it one transaction (R13): either everything it computed becomes the
next state, or nothing does and the fault entry takes place. -/

namespace Sys2Proof.Machine

/-! ## Memory (R40 to R42) -/

/-- The byte a cell list holds at an address: the listed one, else the blank. -/
def readCells : List Host.Cell → Nat → Byte
  | [], _ => Memory.blank
  | (k, w) :: cs, a => if a = k then w else readCells cs a

/-- A cell put before a list of cells at higher addresses; a blank is not listed. -/
def consCell (a : Nat) (v : Byte) (cs : List Host.Cell) : List Host.Cell :=
  if v = Memory.blank then cs else (a, v) :: cs

/-- A cell list with the byte at one address replaced, its canonical form kept. -/
def writeCells : List Host.Cell → Nat → Byte → List Host.Cell
  | [], a, v => consCell a v []
  | (k, w) :: cs, a, v =>
    if a < k then consCell a v ((k, w) :: cs)
    else if a = k then consCell a v cs
    else (k, w) :: writeCells cs a v

/-- The byte a cell holds (R42); bounds are `memRead`'s. -/
def Memory.read (m : Memory) (a : Nat) : Byte := readCells m.cells a

/-- A cell's byte replaced (R42); bounds are `memWrite`'s. -/
def Memory.write (m : Memory) (a : Nat) (v : Byte) : Memory := ⟨writeCells m.cells a v⟩

/-- Bytes placed one after another from an address on; those past the last cell are dropped, for
there is no cell to hold them. -/
def Memory.place (m : Memory) (a : Nat) : List Byte → Memory
  | [] => m
  | b :: bs => if a < Config.memSize then (m.write a b).place (a + 1) bs else m

/-- The bytes of memory from an address on, at most `count` of them, up to the last cell. -/
def Memory.window (m : Memory) (a : Nat) : Nat → List Byte
  | 0 => []
  | count + 1 => if a < Config.memSize then m.read a :: m.window (a + 1) count else []

/-- The state with its memory replaced. -/
def State.withMem (s : State) (m : Memory) : State := { s with mem := m }

/-- `MemRead(addr, 1)` (R41). -/
def State.memRead (s : State) (a : Nat) : Except Cause Byte :=
  if a < Config.memSize then .ok (s.mem.read a) else .error (.outOfBoundsAddress a)

/-- `MemWrite(addr, 1, v)` (R41). -/
def State.memWrite (s : State) (a : Nat) (v : Byte) : Except Cause State :=
  if a < Config.memSize then .ok (s.withMem (s.mem.write a v)) else .error (.outOfBoundsAddress a)

/-! ## Register slots -/

/-- What slot `k` holds: a byte, or UNSET (R21). -/
def State.slot (s : State) (k : Fin 8) : Option Byte := s.regs[k]

/-- Slot `k` overwritten by a byte; it is no longer UNSET (R24). -/
def State.withSlot (s : State) (k : Fin 8) (v : Byte) : State :=
  { s with regs := s.regs.set k (some v) }

/-! ## The stack pointer's bounds -/

/-- The byte the stack pointer moves to, or `StackExhausted` with the out-of-range value it would
have taken (R143). The move is exact and never wraps (R127). -/
def checkSp (v : Int) : Except Cause Byte :=
  if v < 0 ∨ 255 < v then .error (.stackExhausted v) else .ok (BitVec.ofNat 8 v.toNat)

/-! ## The program counter and the output sink -/

/-- The pc a handler writes (R90): only CALL and RET do. -/
def State.withPc (s : State) (p : Nat) : State := { s with pc := p }

/-- `NextPC(p, n, s, handler_pc)` (R85): exact addition, or the pc the handler set. -/
def nextPc (p n : Nat) (suppress : Bool) (handlerPc : Nat) : Nat :=
  if suppress then handlerPc else p + 1 + n

/-- `emit(e)` (R12, R214): the sink only grows, at its end. -/
def State.emit (s : State) (e : Event) : State := { s with out := s.out ++ [e] }

/-! ## Taking a fault, and the commit -/

/-- Fault entry (R184): status and fault record, and nothing else (R185). The state it is applied to
is the state before the step, so its pc is the faulting opcode's address. There is no return from a
fault (R186, R187). -/
def State.takeFault (s : State) (c : Cause) : State :=
  { s with status := .faulted, fault := some ⟨c, s.pc⟩ }

/-- The numeric code of the fault a state records; 0 means no fault (R180). -/
def State.faultCode (s : State) : Nat :=
  match s.fault with
  | none => 0
  | some r => r.cause.kind.code

/-- The commit of a step from `s` whose handler, bound to `op`, computed `r` (R13, R85, R88). A raise
commits nothing and takes the fault in `s`; otherwise every write lands together and the pc takes
its next value. -/
def commit (op : Op) (s : State) (r : Except Cause State) : Host.Outcome State Fault Refusal :=
  match r with
  | .ok t =>
    .next (t.withPc (nextPc s.pc (decodeOpcode op.byte).n (decodeOpcode op.byte).s t.pc))
  | .error c => .next (s.takeFault c)

end Sys2Proof.Machine
end

