-- ==== Sys2Proof/Machine/Operands.lean ====
section
/-! DEFINITION. Machine/Operands.lean: the two operand forms (R64), and the register file's read and
write ports `Get` and `Set` (R23, R24), through which every handler reaches a register (R90). -/

namespace Sys2Proof.Machine

/-- A register operand: the whole byte is the index, not masked to three bits (R64). -/
def regIndex (o : Byte) : Except Cause (Fin 8) :=
  if h : o.toNat < Config.numRegs then .ok ⟨o.toNat, h⟩ else .error (.outOfBoundsRegister o)

/-- An immediate operand: the byte as it is, with no extension and no scaling (R64). -/
def immediate (o : Byte) : Byte := o

/-- What a slot gives when it is read: its byte, or the fault of reading an UNSET slot (R23, D1). -/
def slotValue (k : Fin 8) (v : Option Byte) : Except Cause Byte :=
  match v with
  | some b => .ok b
  | none => .error (.uninitializedRegister k)

/-- `Get(i)`, the `x[i]` of the pseudocode (R12, R23): the index is checked before the slot. -/
def State.getReg (s : State) (o : Byte) : Except Cause Byte := do
  let k ← regIndex o
  slotValue k (s.slot k)

/-- `Set(i, v)`, the `x[i] <- v` of the pseudocode (R12, R24). -/
def State.setReg (s : State) (o v : Byte) : Except Cause State := do
  let k ← regIndex o
  .ok (s.withSlot k v)

/-- The byte that names the stack pointer as a register, 7 (R12, R22). -/
def spOperand : Byte := BitVec.ofNat 8 Config.spIndex.val

/-- `SP` read: `x[7]` (R12). R7 is never UNSET in a run (R142), and its read checks all the same
(notes/assumptions/4.md). -/
def State.getSp (s : State) : Except Cause Byte := s.getReg spOperand

/-- `SP <- v`: `x[7] <- v` (R12). -/
def State.setSp (s : State) (v : Byte) : Except Cause State := s.setReg spOperand v

end Sys2Proof.Machine
end

