-- ==== Sys2Proof/Machine/Alu.lean ====
section
/-! DEFINITION. Machine/Alu.lean: the `alu` block (R120 to R123), and ADD and MUL (42_alu.md). -/

namespace Sys2Proof.Machine

/-- `AluCompute` (R121): unsigned bytes, the exact result reduced modulo 256; an operation outside the
supported set {ADD, MUL} faults (R122, R123). -/
def aluCompute (aop : AluOp) (a b : Byte) : Except Cause Byte :=
  match aop with
  | .add => .ok (BitVec.ofNat 8 ((a.toNat + b.toNat) % 256))
  | .mul =>
    if Config.hasMul then .ok (BitVec.ofNat 8 ((a.toNat * b.toNat) % 256))
    else .error (.unsupportedAluOperation .mul)
  | .other code => .error (.unsupportedAluOperation (.other code))

/-- `Apply(aop, d, s)` (R120): the destination is read first, then the source (D27), and the result
is written to the destination. -/
def State.aluApply (s : State) (aop : AluOp) (dest src : Byte) : Except Cause State := do
  let a ← s.getReg dest
  let b ← s.getReg src
  let v ← aluCompute aop a b
  s.setReg dest v

/-- The ALU's part of a step (R83, R120): `Apply` with the `alu_op` the decoder outputs for the
operation. One for which it outputs none, which neither ADD nor MUL is, would be outside the
supported set (R122, notes/assumptions/5.md). -/
def State.aluDispatch (s : State) (op : Op) (dest src : Byte) : Except Cause State :=
  match (decodeOpcode op.byte).aluOp with
  | some aop => s.aluApply aop dest src
  | none => .error (.unsupportedAluOperation (.other op.byte))

/-- ADD ra, rb (R124). -/
def execAdd (ra rb : Byte) (s : State) : Host.Outcome State Fault Refusal :=
  commit .add s (s.aluDispatch .add ra rb)

/-- MUL ra, rb (R125). -/
def execMul (ra rb : Byte) (s : State) : Host.Outcome State Fault Refusal :=
  commit .mul s (s.aluDispatch .mul ra rb)

end Sys2Proof.Machine
end

