-- ==== Sys2Proof/Machine/Data.lean ====
section
/-! DEFINITION. Machine/Data.lean: HLT, LDI and PRN (41_halt_and_data.md). -/

namespace Sys2Proof.Machine

/-- HLT (R100): emits `Shutdown` and enters Halted; the pc then advances (D10). -/
def execHlt (s : State) : Host.Outcome State Fault Refusal :=
  commit .hlt s (.ok { s.emit .shutdown with status := .halted })

/-- LDI r, i (R102). -/
def execLdi (r i : Byte) (s : State) : Host.Outcome State Fault Refusal :=
  commit .ldi s (s.setReg r (immediate i))

/-- PRN r (R104). -/
def execPrn (r : Byte) (s : State) : Host.Outcome State Fault Refusal :=
  commit .prn s do
    let v ← s.getReg r
    .ok (s.emit (.num v))

end Sys2Proof.Machine
end

