-- ==== Sys2Proof/Machine/Stack.lean ====
section
/-! DEFINITION. Machine/Stack.lean: PUSH and POP (43_stack.md). The stack grows downward and SP holds
the address of its top item (R140); nothing but the bounds 0 and 255 is checked (R143, R144). -/

namespace Sys2Proof.Machine

/-- PUSH r (R141), in the written order: SP is decremented before the register is read, so PUSH R7
stores the new SP (D23). -/
def execPush (r : Byte) (s : State) : Host.Outcome State Fault Refusal :=
  commit .push s do
    let sp ← s.getSp
    let sp1 ← checkSp (sp.toNat - 1)
    let s1 ← s.setSp sp1
    let v ← s1.getReg r
    s1.memWrite sp1.toNat v

/-- POP r (R142), in the written order: the register is written before SP is incremented, so POP R7
leaves the popped byte plus one in SP (D23). -/
def execPop (r : Byte) (s : State) : Host.Outcome State Fault Refusal :=
  commit .pop s do
    let sp ← s.getSp
    let v ← s.memRead sp.toNat
    let s1 ← s.setReg r v
    let sp1 ← s1.getSp
    let sp2 ← checkSp (sp1.toNat + 1)
    s1.setSp sp2

end Sys2Proof.Machine
end

