-- ==== Sys2Proof/Machine/Subroutine.lean ====
section
/-! DEFINITION. Machine/Subroutine.lean: CALL and RET (44_subroutine.md), the only instructions that
write the pc themselves. -/

namespace Sys2Proof.Machine

/-- The return address of a CALL whose opcode is at `p`, as the byte memory holds; 256 does not fit
and faults (R160, R161). -/
def returnAddress (p : Nat) : Except Cause Byte :=
  if 255 < p + 2 then .error (.outOfBoundsAddress (p + 2)) else .ok (BitVec.ofNat 8 (p + 2))

/-- CALL r (R160), in the written order: SP is decremented before the target register is read, so
CALL R7 jumps to the new SP (D23). -/
def execCall (r : Byte) (s : State) : Host.Outcome State Fault Refusal :=
  commit .call s do
    let sp ← s.getSp
    let sp1 ← checkSp (sp.toNat - 1)
    let s1 ← s.setSp sp1
    let ra ← returnAddress s.pc
    let s2 ← s1.memWrite sp1.toNat ra
    let t ← s2.getReg r
    .ok (s2.withPc t.toNat)

/-- RET (R162): pops the byte at SP, whoever stored it, into the pc. -/
def execRet (s : State) : Host.Outcome State Fault Refusal :=
  commit .ret s do
    let sp ← s.getSp
    let t ← s.memRead sp.toNat
    let s1 := s.withPc t.toNat
    let sp2 ← checkSp (sp.toNat + 1)
    s1.setSp sp2

end Sys2Proof.Machine
end

