-- ==== Sys2Proof/Machine/Fetch.lean ====
section
/-! DEFINITION. Machine/Fetch.lean: the `fetch_unit` block (R80 to R82) and what the engine has in hand
when it reaches a handler (R88). The fetch unit only reads memory (R80), and nothing is kept from an
earlier step (R37): a store is seen by the next fetch of its address (R52). -/

namespace Sys2Proof.Machine

/-- `FetchOpcode(pc)` (R81). -/
def State.fetchOpcode (s : State) (p : Nat) : Except Cause Byte := s.memRead p

/-- The `n` bytes from address `a` on, in ascending order; the first that lies past the last cell
faults. -/
def State.fetchBytes (s : State) (a : Nat) : Nat → Except Cause (List Byte)
  | 0 => .ok []
  | n + 1 => do
    let b ← s.memRead a
    let bs ← s.fetchBytes (a + 1) n
    .ok (b :: bs)

/-- `FetchOperands(pc, n)` (R82): all `n` operand bytes, from `pc + 1` on. -/
def State.fetchOperands (s : State) (p n : Nat) : Except Cause (List Byte) := s.fetchBytes (p + 1) n

/-- The instruction at the pc (R88): opcode fetch, decode, dispatch, operand fetch. An illegal opcode
faults before any operand is fetched (R91). -/
def State.fetchInstr (s : State) : Except Cause Instr := do
  let op ← s.fetchOpcode s.pc
  match (decodeOpcode op).ins with
  | none => .error (.illegalInstruction op)
  | some ins =>
    let o ← s.fetchOperands s.pc (decodeOpcode op).n
    .ok (ins.instr o)

end Sys2Proof.Machine
end

