-- ==== Sys2Proof/Machine/Engine.lean ====
section
/-! DEFINITION. Machine/Engine.lean: the `execution_engine` block's one step (R88), and what stands in
its place outside Running (R89). -/

namespace Sys2Proof.Machine

/-- `Step()` (R88), in Running. A raise of the fetch, the decoder or the handler commits nothing and
takes the fault. -/
def State.runningStep (s : State) : Host.Outcome State Fault Refusal :=
  match s.fetchInstr with
  | .ok i => exec i s
  | .error c => .next (s.takeFault c)

/-- Idle: the engine has no step and waits for the host's `run` (R89; DEDUCED, safe,
notes/assumptions/2.md). -/
def State.idleStep (_ : State) : Host.Outcome State Fault Refusal := .fault .waitsForRun

/-- Halted: terminal (R29, R89). -/
def State.haltedStep (_ : State) : Host.Outcome State Fault Refusal := .fault .hasHalted

/-- Faulted: terminal; the engine surfaces the fault record (R184, R187, R89). -/
def State.faultedStep (s : State) : Host.Outcome State Fault Refusal := .fault (.hasFaulted s.fault)

/-- The state in which the engine's next step runs the instruction whose bytes are given: they stand
at the pc, as far as memory reaches, and the engine is Running (what the host's `load` and `run`
leave, R212, R213; notes/assumptions/2.md). -/
def State.readyToRun (s : State) (bytes : List Byte) : State :=
  { s with mem := s.mem.place s.pc bytes, status := .running }

end Sys2Proof.Machine
end

