-- ==== Sys2Proof/Machine/Step.lean ====
section
/-! DEFINITION. Machine/Step.lean: one step of the machine (R88, R89). -/

namespace Sys2Proof.Machine

/-- One step: the engine steps in Running, and has no step in Idle, Halted and Faulted (R89). -/
def step (s : State) : Host.Outcome State Fault Refusal :=
  match s.status with
  | .running => s.runningStep
  | .idle => s.idleStep
  | .halted => s.haltedStep
  | .faulted => s.faultedStep

/-- `s` with the instruction whose bits are `w` (numbered as the opcode table numbers them, the bits
above `nbits` zero) where the next step fetches it, and the engine Running. It stands for the host's
`load` and `run`, by which a program comes to run (R212, R213; notes/assumptions/2.md). -/
def State.withFetchWord (s : State) (nbits w : Nat) : State :=
  s.readyToRun (bytesOfWord maxInstrBytes (w % 2 ^ nbits))

end Sys2Proof.Machine
end

