-- ==== Sys2Proof/Machine/Loader.lean ====
section
/-! DEFINITION. Machine/Loader.lean: the host side's two texts: the loader's program format (R216,
R217), and the renderer of output events (R101, R105). A text is a list of characters. Finding and
opening a file is out of scope (R8); a missing file is `none`. -/

namespace Sys2Proof.Machine

/-! ## The program text (R216) -/

/-- What one line of a program text stands for. -/
inductive ProgramLine where
  /-- An 8-character binary literal. -/
  | byte (b : Byte)
  /-- A line that begins with another character than `0` or `1`, or is empty. -/
  | ignored
  /-- A line that begins with `0` or `1` and is no 8-character binary literal. -/
  | malformed
  deriving DecidableEq, Repr

/-- A line without its trailing comment, which `#` introduces (R216). -/
def stripComment (line : List Char) : List Char := line.takeWhile (· ≠ '#')

/-- White space stripped from both ends (R216); which characters are white space is notes/assumptions/7.md. -/
def stripSpaces (line : List Char) : List Char :=
  ((line.dropWhile Char.isWhitespace).reverse.dropWhile Char.isWhitespace).reverse

/-- The number binary digits denote, the most significant first, after a prefix worth `acc`; `none`
where a character is no binary digit. -/
def binaryValue : Nat → List Char → Option Nat
  | acc, [] => some acc
  | acc, c :: cs =>
    if c = '0' then binaryValue (2 * acc) cs
    else if c = '1' then binaryValue (2 * acc + 1) cs
    else none

/-- One line of a program text (R216). -/
def parseLine (line : List Char) : ProgramLine :=
  match stripSpaces (stripComment line) with
  | [] => .ignored
  | c :: cs =>
    if c = '0' ∨ c = '1' then
      match binaryValue 0 (c :: cs) with
      | some v => if (c :: cs).length = 8 then .byte (BitVec.ofNat 8 v) else .malformed
      | none => .malformed
    else .ignored

/-- A text's lines; a line ends at a newline (notes/assumptions/7.md). -/
def splitLines : List Char → List (List Char)
  | [] => [[]]
  | c :: cs =>
    if c = '\n' then [] :: splitLines cs
    else
      match splitLines cs with
      | [] => [[c]]
      | line :: lines => (c :: line) :: lines

/-- The bytes of the lines in order; `none` where a line is malformed (R216, R217). -/
def collectBytes : List (List Char) → Option (List Byte)
  | [] => some []
  | line :: lines =>
    match parseLine line with
    | .byte b => (collectBytes lines).map (b :: ·)
    | .ignored => collectBytes lines
    | .malformed => none

/-- The program a file holds, or `ProgramLoadFailed`: the file is missing, a line is malformed, or it
yields more than 256 bytes (R217). -/
def readProgram (file : Option (List Char)) : Except FaultKind (List Byte) :=
  match file.bind (fun text => collectBytes (splitLines text)) with
  | some bytes => if bytes.length ≤ Config.memSize then .ok bytes else .error .programLoadFailed
  | none => .error .programLoadFailed

/-- A byte as an 8-character binary literal, the most significant digit first (R216). -/
def binaryLiteral (b : Byte) : List Char :=
  (List.range 8).map (fun k => if b.getLsbD (7 - k) then '1' else '0')

/-- A program written "as one 8-character binary literal per line" (R71). -/
def programText (bytes : List Byte) : List Char := bytes.flatMap (fun b => binaryLiteral b ++ ['\n'])

/-! ## The rendered output (R101, R105) -/

/-- A `Num(v)` event's text: the decimal digits of `v`, no sign and no leading zeros (R105). -/
def renderNum (v : Byte) : List Char :=
  let hundreds := v.toNat / 100
  let tens := v.toNat / 10 % 10
  let ones := v.toNat % 10
  if hundreds ≠ 0 then [Nat.digitChar hundreds, Nat.digitChar tens, Nat.digitChar ones]
  else if tens ≠ 0 then [Nat.digitChar tens, Nat.digitChar ones]
  else [Nat.digitChar ones]

/-- One event's text. The shutdown message's text is a free value (R101, notes/assumptions/6.md). -/
def renderEvent : Event → List Char
  | .num v => renderNum v
  | .shutdown => Config.shutdownText

/-- The sink's contents as text; what separates two outputs is a free value (R105,
notes/assumptions/6.md). -/
def renderOutput (out : List Event) : List Char :=
  Config.outputSeparator.intercalate (out.map renderEvent)

end Sys2Proof.Machine
end

