-- ==== Sys2Proof/Machine/HostPort.lean ====
section
/-! DEFINITION. Machine/HostPort.lean: the machine's boundary with the host (R87): `construct`, `load`,
`run`, and the result of a run. A step never waits on the host, and the host cannot act on a running
machine (R224), so the two commands stand outside `step`. -/

namespace Sys2Proof.Machine

/-- One machine instance as its host holds it: the machine, and whether it has been loaded, which is
"host-side bookkeeping, not architectural" (R212, notes/assumptions/8.md). -/
structure Session where
  machine : State
  loaded : Bool
  deriving DecidableEq, Repr

/-- Construction of an instance, which is its reset (R210, R211). -/
def Session.construct : Session := { machine := State.reset, loaded := false }

/-- `load(bytes)` (R212): only in Idle, only once, at most 256 bytes, from address 0. -/
def Session.load (h : Session) (bytes : List Byte) : Host.Outcome Session FaultKind Refusal :=
  if h.machine.status ≠ .idle then .refused .loadNotIdle
  else if h.loaded then .refused .loadedBefore
  else if Config.memSize < bytes.length then .refused .loadTooLong
  else
    .next { machine := { h.machine with mem := h.machine.mem.place Config.loadAddr bytes }, loaded := true }

/-- The loader's way to `load` (R216, R217): a file that fails gives `ProgramLoadFailed`, and the core
receives nothing; the instance the host holds stays as it was (R182). -/
def Session.loadFile (h : Session) (file : Option (List Char)) : Host.Outcome Session FaultKind Refusal :=
  match readProgram file with
  | .ok bytes => h.load bytes
  | .error k => .fault k

/-- `run()` (R213): only in Idle, to Running. -/
def State.runCommand (s : State) : Host.Outcome State Fault Refusal :=
  if s.status = .idle then .next { s with status := .running } else .refused .runNotIdle

/-- The result of a run (R215). -/
inductive RunResult where
  | halted (mem : Memory) (regs : Vector (Option Byte) 8) (pc : Nat) (out : List Event)
  | faulted (record : FaultRecord) (mem : Memory) (regs : Vector (Option Byte) 8) (pc : Nat)
      (out : List Event)
  deriving DecidableEq, Repr

/-- The result a state gives, where the run has ended (R215, R218). -/
def State.result (s : State) : Option RunResult :=
  match s.status, s.fault with
  | .halted, _ => some (.halted s.mem s.regs s.pc s.out)
  | .faulted, some r => some (.faulted r s.mem s.regs s.pc s.out)
  | _, _ => none

/-- The engine's loop (R92): step while Running, and the result at the end. A run that has not ended
within the fuel has no result yet (R225). -/
def State.runLoop : Nat → State → Option RunResult
  | 0, s => s.result
  | fuel + 1, s =>
    match step s with
    | .next t => t.runLoop fuel
    | .fault _ => s.result
    | .refused _ => none

end Sys2Proof.Machine
end

