-- ==== Sys2Proof/Safety.lean ====
section
/-! DEFINITION. Safety.lean: what is true of every state a run reaches, and what a safe run is. -/

namespace Sys2Proof.Machine

/-- What holds in every state a run reaches. Statements that could fail only elsewhere take it as a
premise. -/
structure State.Inv (s : State) : Prop where
  /-- Memory has its canonical form, and lists no address past 255 (R40). -/
  mem_wf : s.mem.wf
  /-- "The reachable pc values are 0 to 256" (R95). -/
  pc_range : s.pc ≤ Config.memSize
  /-- R7 "is never UNSET" (R142). -/
  sp_set : s.slot Config.spIndex ≠ none
  /-- "`fault ≠ none` exactly when `status = Faulted`" (R30). -/
  fault_iff_faulted : s.fault ≠ none ↔ s.status = .faulted
  /-- A fault record names the pc, which the faulting step left in place (R184, R185). -/
  fault_pc : ∀ r, s.fault = some r → r.pc = s.pc
  /-- `Shutdown` is emitted by HLT alone, which is the only way into Halted (R29, R31). -/
  shutdown_iff_halted : Event.shutdown ∈ s.out ↔ s.status = .halted

/-- `t` is reached from `s` by some number of steps. -/
inductive Reaches (s : State) : State → Prop where
  | refl : Reaches s s
  | tail {t u : State} : Reaches s t → step t = .next u → Reaches s u

/-- A safe run from `s`: no step of it faults (R29, R187). -/
def NeverFaults (s : State) : Prop := ∀ t, Reaches s t → t.status ≠ .faulted

end Sys2Proof.Machine
end

