-- ==== Sys2Proof/WellFormed.lean ====
section
/-! DEFINITION. WellFormed.lean: the one check on an instruction that its type does not make.

spec/opcode_table.json says of every register operand "must be < 8". The decoder does NOT ask for
it: every register operand byte decodes, and one of 8 or more faults `OutOfBoundsRegister` when the
instruction uses it (R64, R67). So an instruction that is not well-formed still has an encoding, a
decoding and a meaning, and the statements about them hold for it too. -/

namespace Sys2Proof

/-- A register operand byte names a slot that exists (R21, R64). -/
abbrev RegOperandOk (r : Byte) : Prop := r.toNat < Config.numRegs

/-- Every register operand of the instruction names a slot that exists. -/
abbrev WellFormed (i : Instr) : Prop := ∀ r ∈ i.regOperands, RegOperandOk r

end Sys2Proof
end

