-- ==== Sys2Proof/Certificates/Slice0/Obligations.lean ====
section
/-! DEFINITION. Certificates/Slice0/Obligations.lean: the statements for the provers. Each docstring
names the rule of spec/ it formalises.

Conventions. "A fault" is the spec's own: the fault entry of R184, a next state with status Faulted
(notes/assumptions/1.md). `s.takeFault c` is that state; `FaultsArePrecise` says what it is. Where a
statement needs R7 to hold a byte, it names the byte (`s.slot 7 = some sp`); that R7 is never UNSET
is part of the invariant `State.Inv`. -/

open Sys2Proof Sys2Proof.Machine

/-! ## Encoding -/

/-- Decoding an encoded instruction gives it back with the bytes that follow, for every instruction
and every operand byte (R64, R65, R72). No well-formedness is needed: every register operand byte
decodes (R67). -/
def Obligations.DecodeOfEncode : Prop :=
  ∀ (i : Instr) (rest : List Byte), decode (encode i ++ rest) = .ok (i, rest)

/-- Whatever decodes was the encoding of the instruction it decodes to: one encoding an instruction
(R65, R69). -/
def Obligations.EncodeOfDecode : Prop :=
  ∀ (bytes rest : List Byte) (i : Instr), decode bytes = .ok (i, rest) → bytes = encode i ++ rest

/-- The opcode's bits agree with the instruction (R62, R63, R65, R68): the length is one more than
`op[7:6]`, and `op[4]` is 1 exactly for CALL and RET. -/
def Obligations.OpcodeBitsMatchInstruction : Prop :=
  ∀ i : Instr,
    (encode i).length = 1 + (decodeOpcode i.op.byte).n ∧
    ((decodeOpcode i.op.byte).s = true ↔ (∃ r, i = .call r) ∨ i = .ret)

/-- Words written out from the encodings of R72, whose byte values the spec takes from general knowledge
(D3; notes/assumptions/13.md). -/
def Obligations.SpecWordsDecode : Prop :=
  decode [0b00000001#8] = .ok (.hlt, []) ∧
  decode [0b10000010#8, 0b00000011#8, 0b00101010#8] = .ok (.ldi 3 42, []) ∧
  decode [0b10100000#8, 0b00000000#8, 0b00000001#8] = .ok (.add 0 1, []) ∧
  decode [0b01000101#8, 0b00000010#8] = .ok (.push 2, []) ∧
  decode [0b01010000#8, 0b00000001#8] = .ok (.call 1, []) ∧
  decode [0b00010001#8] = .ok (.ret, [])

/-- The illegal opcodes (R66): exactly the bytes not in the opcode map, 247 of them, 0x00 and every
byte with `op[7:6] = 3` among them; one fetched as an opcode faults `IllegalInstruction(op)`, wherever
it stands in memory, and changes nothing else. Which nine bytes are legal is R65's map, which the spec
takes from general knowledge (D3; PRESUMED, unsafe, notes/assumptions/13.md). -/
def Obligations.IllegalOpcodeFaults : Prop :=
  (∀ op : Byte, boundOp op = none ↔
    op ∉ [0x01#8, 0x82#8, 0x47#8, 0xA0#8, 0xA2#8, 0x45#8, 0x46#8, 0x50#8, 0x11#8]) ∧
  ((List.range 256).filter (fun n => boundOp (BitVec.ofNat 8 n) = none)).length = 247 ∧
  boundOp 0x00#8 = none ∧
  (∀ op : Byte, operandCount op = 3 → boundOp op = none) ∧
  (∀ (s : State) (op : Byte), s.status = .running → s.pc < 256 → s.mem.read s.pc = op →
    boundOp op = none → step s = .next (s.takeFault (.illegalInstruction op)))

/-! ## The step -/

/-- A step runs the instruction whose bytes stand at the pc (R88): nothing is added around `exec`. -/
def Obligations.StepRunsDecodedInstruction : Prop :=
  ∀ (s : State) (i : Instr) (rest : List Byte), s.status = .running →
    decode (s.mem.window s.pc maxInstrBytes) = .ok (i, rest) → step s = exec i s

/-- Opcode fetch (R81): the byte at the pc, or `OutOfBoundsAddress(pc)` from 256 on, which is then the
step's fault. -/
def Obligations.OpcodeFetchBounds : Prop :=
  (∀ (s : State) (p : Nat), p < 256 → s.fetchOpcode p = .ok (s.mem.read p)) ∧
  (∀ (s : State) (p : Nat), 256 ≤ p → s.fetchOpcode p = .error (.outOfBoundsAddress p)) ∧
  (∀ s : State, s.status = .running → 256 ≤ s.pc →
    step s = .next (s.takeFault (.outOfBoundsAddress s.pc)))

/-- Operand fetch (R82): the bytes at pc+1, pc+2 in order, every one of them, the first that lies past
255 faulting; an instruction whose last byte would lie past 255 faults `OutOfBoundsAddress(256)` and
does not execute. When operands are fetched is the spec's own choice (D11). -/
def Obligations.OperandFetchBounds : Prop :=
  (∀ (s : State) (p n : Nat), p + n < 256 →
    s.fetchOperands p n = .ok ((List.range n).map (fun k => s.mem.read (p + 1 + k)))) ∧
  (∀ (s : State) (p n k : Nat), 1 ≤ k → k ≤ n → 256 ≤ p + k → (∀ j, 1 ≤ j → j < k → p + j < 256) →
    s.fetchOperands p n = .error (.outOfBoundsAddress (p + k))) ∧
  (∀ (s : State) (ins : Op), s.status = .running → s.pc < 256 →
    boundOp (s.mem.read s.pc) = some ins → 256 ≤ s.pc + operandCount (s.mem.read s.pc) →
    step s = .next (s.takeFault (.outOfBoundsAddress 256)))

/-- The engine has a step in Running and nowhere else (R89), and a step in Running always answers a
next state: no instruction is refused. -/
def Obligations.StepExactlyInRunning : Prop :=
  ∀ s : State, (∃ t, step s = .next t) ↔ s.status = .running

/-- The transitions of the status (R29): the whole table, and nothing else; `run` is accepted in Idle
and in no other status (R213). Faulted is the spec's own fourth state (D5), the host commands'
legality its own choice (D18; notes/assumptions/14.md). The refusal's name is the model's
(notes/assumptions/12.md). -/
def Obligations.StatusTransitions : Prop :=
  (∀ s : State, s.status = .idle → s.runCommand = .next { s with status := .running }) ∧
  (∀ s t : State, step s = .next t → s.status = .running ∧
    ((s.fetchInstr = .ok .hlt ∧ t.status = .halted) ∨
     (t.status = .faulted ∧ ((∃ c, s.fetchInstr = .error c) ∨
       ∃ i, s.fetchInstr = .ok i ∧ i ≠ .hlt ∧ ∃ c, exec i s = .next (s.takeFault c))) ∨
     ((∃ i, s.fetchInstr = .ok i ∧ i ≠ .hlt) ∧ t.status = .running))) ∧
  (∀ s : State, s.status = .halted ∨ s.status = .faulted →
    (∀ t, step s ≠ .next t) ∧ (∀ t, s.runCommand ≠ .next t)) ∧
  (∀ s : State, s.status ≠ .idle → s.runCommand = .refused .runNotIdle)

/-- Faults are precise (R184, R185): a step that ends Faulted writes the status and the fault record,
with the address of the faulting opcode, and changes nothing else. The spec marks both as its own
choice (D4, D5; notes/assumptions/14.md). -/
def Obligations.FaultsArePrecise : Prop :=
  ∀ s t : State, step s = .next t → t.status = .faulted →
    t.mem = s.mem ∧ t.regs = s.regs ∧ t.pc = s.pc ∧ t.out = s.out ∧
    ∃ c, t.fault = some ⟨c, s.pc⟩

/-- A fault is final: a Faulted machine has no step and accepts no `run` (R187, R213), and no `load`,
which R212 accepts only in Idle. The host commands' legality is the spec's own choice (D18). That the
step's stop carries the record, and which refusal a `load` gets first, are the model's form
(notes/assumptions/1.md, notes/assumptions/12.md). -/
def Obligations.FaultedIsFinal : Prop :=
  ∀ s : State, s.status = .faulted →
    step s = .fault (.hasFaulted s.fault) ∧ s.runCommand = .refused .runNotIdle ∧
    ∀ (b : Bool) (bytes : List Byte),
      Session.load { machine := s, loaded := b } bytes = .refused .loadNotIdle

/-- A step does not read `out`, nor the fault record (R93): with another output so far and another
record it does the same, and appends the same events. -/
def Obligations.StepIgnoresOutput : Prop :=
  ∀ (s t : State) (o : List Event) (f : Option FaultRecord), step s = .next t →
    ∃ es : List Event, t.out = s.out ++ es ∧
      step { s with out := o, fault := f } =
        .next { t with out := o ++ es, fault := if t.status = .faulted then t.fault else f }

/-- The pc an instruction leaves (R85): where it stood, if the instruction faults; past the
instruction's bytes, if it does not and its suppress flag is 0; and what the handler set, for CALL
(R160: the register, read after SP moved) and RET (R162: the byte at SP). The pc after a fault and
CALL R7's order are the spec's own choices (D4, D23; notes/assumptions/14.md). -/
def Obligations.NextPcRule : Prop :=
  ∀ (i : Instr) (s t : State), s.status ≠ .faulted → exec i s = .next t →
    (t.status = .faulted → t.pc = s.pc) ∧
    (t.status ≠ .faulted → (decodeOpcode i.op.byte).s = false →
      t.pc = s.pc + 1 + (decodeOpcode i.op.byte).n) ∧
    (t.status ≠ .faulted → ∀ r, i = .call r →
      ∃ (k : Fin 8) (x : Byte), r.toNat = k.val ∧ t.slot k = some x ∧ t.pc = x.toNat) ∧
    (t.status ≠ .faulted → i = .ret → ∃ sp, s.slot 7 = some sp ∧ t.pc = (s.mem.read sp.toNat).toNat)

/-! ## Invariants -/

/-- The invariant holds at reset (R36). -/
def Obligations.InvAtReset : Prop := State.reset.Inv

/-- Every step keeps the invariant: memory's canonical form, the pc's range (R28, R95), R7 never
UNSET (R142), `fault ≠ none` exactly when Faulted (R30), the record's pc (R184), `Shutdown` emitted
exactly when Halted (R29, R31). -/
def Obligations.StepKeepsInv : Prop :=
  ∀ s t : State, s.Inv → step s = .next t → t.Inv

/-- The host's commands keep the invariant (R212, R213). -/
def Obligations.HostCommandsKeepInv : Prop :=
  (∀ (h h' : Session) (bytes : List Byte), h.machine.Inv → h.load bytes = .next h' → h'.machine.Inv) ∧
  (∀ s t : State, s.Inv → s.runCommand = .next t → t.Inv)

/-- Once a slot is written, its UNSET marker is clear for the rest of the run (R24, R34). -/
def Obligations.WrittenSlotsStayWritten : Prop :=
  ∀ (s t : State) (k : Fin 8), Reaches s t → s.slot k ≠ none → t.slot k ≠ none

/-! ## Reset and the host's commands -/

/-- Every value of the reset table (R36, the spec's own choices D5, D12, D13, D15 among them), and memory after `load`: the program from address 0 on, and
zeros elsewhere. -/
def Obligations.ResetValues : Prop :=
  (∀ a, State.reset.mem.read a = 0) ∧
  (∀ k : Fin 8, k ≠ 7 → State.reset.slot k = none) ∧
  State.reset.slot 7 = some 0xF4#8 ∧ State.reset.pc = 0 ∧ State.reset.status = .idle ∧
  State.reset.fault = none ∧ State.reset.out = [] ∧
  (∀ bytes : List Byte, bytes.length ≤ 256 →
    ∃ h, Session.construct.load bytes = .next h ∧ ∀ a, h.machine.mem.read a = bytes.getD a 0)

/-- `load` (R212, the spec's own choices D18, D19): accepted only in Idle, only once, only up to 256 bytes; it writes the program's cells
and nothing else. -/
def Obligations.LoadPlacesProgram : Prop :=
  ∀ (h : Session) (bytes : List Byte),
    (h.machine.status = .idle → h.loaded = false → bytes.length ≤ 256 → h.machine.mem.wf →
      ∃ h', h.load bytes = .next h' ∧ h'.loaded = true ∧
        h'.machine = { h.machine with mem := h'.machine.mem } ∧
        ∀ a, h'.machine.mem.read a = if a < bytes.length then bytes.getD a 0 else h.machine.mem.read a) ∧
    (h.machine.status ≠ .idle ∨ h.loaded = true ∨ 256 < bytes.length → ∃ r, h.load bytes = .refused r)

/-- The loop the host's `run` starts (R92, R215, R218): what it returns is the result of a Halted or
Faulted state the run reaches, and every end a run reaches is returned under enough fuel. The result
carries memory, registers, pc and output, and a fault's record, the spec's own choice (D30;
notes/assumptions/14.md). -/
def Obligations.RunLoopReturnsTheEnd : Prop :=
  (∀ (fuel : Nat) (s : State) (r : RunResult), s.runLoop fuel = some r →
    ∃ t, Reaches s t ∧ (t.status = .halted ∨ t.status = .faulted) ∧ t.result = some r ∧
      ((t.status = .halted ∧ r = .halted t.mem t.regs t.pc t.out) ∨
        (t.status = .faulted ∧ ∃ f, t.fault = some f ∧ r = .faulted f t.mem t.regs t.pc t.out))) ∧
  (∀ s t : State, Reaches s t → t.status = .halted ∨ t.status = .faulted →
    ∃ fuel, s.runLoop fuel = t.result) ∧
  (∀ s t : State, Reaches s t → t.status = .halted →
    ∃ fuel, s.runLoop fuel = some (.halted t.mem t.regs t.pc t.out)) ∧
  (∀ (s t : State) (r : FaultRecord), Reaches s t → t.status = .faulted → t.fault = some r →
    ∃ fuel, s.runLoop fuel = some (.faulted r t.mem t.regs t.pc t.out))

/-- An empty program faults at once (R220): with nothing loaded, the first step after `run` faults
`IllegalInstruction(0x00)` at pc 0, and that is the result. -/
def Obligations.EmptyMemoryFaultsAtOnce : Prop :=
  ∃ s t : State, State.reset.runCommand = .next s ∧ step s = .next t ∧
    t.fault = some ⟨.illegalInstruction 0x00#8, 0⟩ ∧
    t.result = some (.faulted ⟨.illegalInstruction 0x00#8, 0⟩ State.reset.mem State.reset.regs 0 [])

/-- The program text the toolchain's users write, one binary literal a line (R71), loads as its bytes;
of any text without a malformed line, the lines' bytes in order, the ignored lines left out (R216).
The host's load of a file that reads as a program is `load` of its bytes (R212). A missing file, a malformed line and an oversize program fail (R217), which is no fault of the engine:
no fault record holds `ProgramLoadFailed` (R182). Malformed and oversize programs failing is the
spec's own choice (D19); where a line ends is the model's (DESIGN CHOICE, unsafe,
notes/assumptions/7.md). -/
def Obligations.LoaderReadsProgramText : Prop :=
  (∀ bytes : List Byte, bytes.length ≤ 256 → readProgram (some (programText bytes)) = .ok bytes) ∧
  (∀ bytes : List Byte, 256 < bytes.length →
    readProgram (some (programText bytes)) = .error .programLoadFailed) ∧
  (∀ (h : Session) (file : Option (List Char)) (bytes : List Byte), readProgram file = .ok bytes →
    h.loadFile file = h.load bytes) ∧
  (∀ h : Session, h.loadFile none = .fault .programLoadFailed) ∧
  (∀ text : List Char, (∃ line ∈ splitLines text, parseLine line = .malformed) →
    readProgram (some text) = .error .programLoadFailed ∧
    ∀ h : Session, h.loadFile (some text) = .fault .programLoadFailed) ∧
  (∀ (text : List Char) (bytes : List Byte),
    ((splitLines text).map parseLine).filter (· ≠ .ignored) = bytes.map .byte →
    readProgram (some text) = if bytes.length ≤ 256 then .ok bytes else .error .programLoadFailed) ∧
  (∀ c : Cause, c.kind ≠ .programLoadFailed)

/-- The forms of a loader line (R216). A comment and the white space at both ends do not count. What is
left is a byte, if it is 8 binary digits, read most significant first; it is malformed, if it begins
with 0 or 1 and is shorter or longer or holds another character; it is ignored, if it begins with
another character or is empty. That white space is stripped and such lines are malformed is the
spec's own choice (D19); which characters are white space is the model's (DESIGN CHOICE, unsafe,
notes/assumptions/7.md). -/
def Obligations.LoaderLineForms : Prop :=
  (∀ (b : Byte) (comment : List Char), parseLine (binaryLiteral b ++ ' ' :: '#' :: comment) = .byte b) ∧
  (∀ (b : Byte) (n : Nat), 0 < n → n < 8 → parseLine ((binaryLiteral b).take n) = .malformed) ∧
  (∀ (c : Char) (cs : List Char), c ≠ '0' → c ≠ '1' → c.isWhitespace = false → parseLine (c :: cs) = .ignored) ∧
  (∀ line comment : List Char, parseLine (line ++ '#' :: comment) = parseLine line) ∧
  (∀ before line after : List Char, (∀ c ∈ before ++ after, c.isWhitespace = true) →
    parseLine (before ++ line ++ after) = parseLine line) ∧
  (∀ digits : List Char, digits.length = 8 → (∀ d ∈ digits, d = '0' ∨ d = '1') →
    parseLine digits = .byte (BitVec.ofNat 8 (digits.foldl (fun n d => 2 * n + (d.toNat - 48)) 0))) ∧
  (∀ (c last : Char) (cs : List Char), c = '0' ∨ c = '1' → '#' ∉ cs →
    (c :: cs).getLast? = some last → last.isWhitespace = false →
    ((c :: cs).length ≠ 8 ∨ ∃ d ∈ cs, d ≠ '0' ∧ d ≠ '1') → parseLine (c :: cs) = .malformed) ∧
  (∀ line : List Char, (∀ c ∈ line, c.isWhitespace = true) → parseLine line = .ignored)

/-- The renderer's text of `Num(v)` (R105): one decimal digit or more that denote `v`, without a leading
zero; for 0 it is the one digit 0. Events instead of texts are the spec's own choice (D15;
notes/assumptions/14.md). -/
def Obligations.RenderedNumberIsDecimal : Prop :=
  ∀ v : Byte,
    (∀ c ∈ renderNum v, ∃ d, d < 10 ∧ c = Nat.digitChar d) ∧
    (renderNum v).foldl (fun n c => 10 * n + (c.toNat - 48)) 0 = v.toNat ∧
    ((renderNum v).head? = some '0' → v = 0) ∧
    renderNum v ≠ [] ∧ (v = 0 → renderNum v = ['0'])

/-! ## Memory -/

/-- A write replaces the cell's byte with the byte written and has no other effect; a read finds it
(R42). -/
def Obligations.MemoryReadAfterWrite : Prop :=
  ∀ (m : Memory) (a : Nat) (v : Byte), m.wf →
    (m.write a v).read a = v ∧ (∀ b, b ≠ a → (m.write a v).read b = m.read b) ∧
    (m.write a v).write a v = m.write a v

/-- Memory has one form: two memories in canonical form whose 256 cells (R20, R40) agree are equal data.
The canonical form is the model's own representation, which no rule speaks of (DESIGN CHOICE,
notes/assumptions/9.md). -/
def Obligations.MemoryFormIsCanonical : Prop :=
  ∀ m n : Memory, m.wf → n.wf → (∀ a, a < 256 → m.read a = n.read a) → m = n

/-- The bounds check on every access (R41): an address outside 0..255 faults `OutOfBoundsAddress`, is
never reduced, and one inside never faults. -/
def Obligations.MemoryBoundsChecked : Prop :=
  ∀ (s : State) (a : Nat) (v : Byte),
    (a < 256 → s.memRead a = .ok (s.mem.read a) ∧ s.memWrite a v = .ok (s.withMem (s.mem.write a v))) ∧
    (256 ≤ a → s.memRead a = .error (.outOfBoundsAddress a) ∧ s.memWrite a v = .error (.outOfBoundsAddress a))

/-- A stored byte is seen by the next fetch of its address, as an opcode or as whichever operand stands
there (R52, R222), the spec's own choice (D14). -/
def Obligations.FetchSeesStore : Prop :=
  ∀ (s t : State) (a : Nat) (v : Byte), s.mem.wf → s.memWrite a v = .ok t →
    t.fetchOpcode a = .ok v ∧ (∀ p, p + 1 = a → t.fetchOperands p 1 = .ok [v]) ∧
    ∀ p n k, 1 ≤ k → k ≤ n → p + k = a → p + n < 256 →
      ∃ o, t.fetchOperands p n = .ok o ∧ o.length = n ∧ o[k - 1]? = some v

/-! ## Registers and the ALU -/

/-- `Get(i)` (R23): the index is checked, then the UNSET marker, and then the byte is read. That an
UNSET register's read faults is the spec's own choice (D1). -/
def Obligations.RegisterReadChecks : Prop :=
  ∀ (s : State) (i : Byte),
    (8 ≤ i.toNat → s.getReg i = .error (.outOfBoundsRegister i)) ∧
    (∀ h : i.toNat < 8, s.slot ⟨i.toNat, h⟩ = none →
      s.getReg i = .error (.uninitializedRegister ⟨i.toNat, h⟩)) ∧
    (∀ (h : i.toNat < 8) (v : Byte), s.slot ⟨i.toNat, h⟩ = some v → s.getReg i = .ok v)

/-- `Set(i, v)` (R24): an index of 8 or more faults; in range it always succeeds, overwrites the slot,
which is then not UNSET, and leaves the rest of the machine as it is. -/
def Obligations.RegisterWriteOverwrites : Prop :=
  ∀ (s : State) (i v : Byte),
    (8 ≤ i.toNat → s.setReg i v = .error (.outOfBoundsRegister i)) ∧
    (∀ h : i.toNat < 8, ∃ t, s.setReg i v = .ok t ∧ t.slot ⟨i.toNat, h⟩ = some v ∧
      (∀ k : Fin 8, k.val ≠ i.toNat → t.slot k = s.slot k) ∧
      t = { s with regs := t.regs })

/-- ALU arithmetic (R121): the exact sum and product of the unsigned bytes, modulo 256. -/
def Obligations.AluResultsModulo256 : Prop :=
  ∀ a b : Byte,
    (∃ c, aluCompute .add a b = .ok c ∧ c.toNat = (a.toNat + b.toNat) % 256) ∧
    (∃ c, aluCompute .mul a b = .ok c ∧ c.toNat = (a.toNat * b.toNat) % 256)

/-- An ALU operation outside the supported set faults, and no program can raise it (R122): no step
records `UnsupportedAluOperation`, and 0xA7 is an illegal opcode. That no program can raise it is the
spec's own choice (D25; notes/assumptions/14.md); `AluOp.other` as what stands for such an operation
is the model's (DESIGN CHOICE, notes/assumptions/5.md). -/
def Obligations.UnsupportedAluOperationUnreachable : Prop :=
  (∀ (c a b : Byte), aluCompute (.other c) a b = .error (.unsupportedAluOperation (.other c))) ∧
  (∀ s t : State, step s = .next t → s.fault = none →
    ∀ r, t.fault = some r → r.cause.kind ≠ .unsupportedAluOperation) ∧
  boundOp 0xA7#8 = none

/-- An instruction whose register operands are all below 8 never faults `OutOfBoundsRegister` (R64,
R67). -/
def Obligations.WellFormedNamesRegisters : Prop :=
  ∀ (i : Instr) (s t : State), WellFormed i → s.fault = none → exec i s = .next t →
    ∀ r, t.fault = some r → r.cause.kind ≠ .outOfBoundsRegister

/-- No slot but R7 is read implicitly (R22, R26, R188): an instruction that does not name slot `k`
does the same whatever `k` holds, and leaves it as it is. R5 and R6 are inert, the spec's own choice (D12). -/
def Obligations.UnnamedSlotsAreInert : Prop :=
  ∀ (i : Instr) (s t : State) (k : Fin 8) (v : Byte), k ≠ 7 →
    (∀ r ∈ i.regOperands, r.toNat ≠ k.val) → exec i s = .next t →
    exec i (s.withSlot k v) = .next (t.withSlot k v)

/-! ## HLT, LDI and PRN -/

/-- HLT (R100): emits `Shutdown`, enters Halted, the pc advances by one, and nothing else changes; the
handler raises nothing, and a HLT at any address 0..255 is executed. That the pc advances is the
spec's own choice (D10). -/
def Obligations.HltRule : Prop :=
  decode [0b00000001#8] = .ok (.hlt, []) ∧
  (∀ s : State, exec .hlt s =
    .next { s with status := .halted, out := s.out ++ [.shutdown], pc := s.pc + 1 }) ∧
  (∀ s : State, s.status = .running → s.pc < 256 → s.mem.read s.pc = 0x01#8 → step s = exec .hlt s)

/-- After HLT the engine makes no further fetch, wherever the pc is (R94). -/
def Obligations.NoFetchAfterHlt : Prop :=
  ∀ s : State, ∃ t, exec .hlt s = .next t ∧ step t = .fault .hasHalted

/-- LDI (R102): the whole rule, in every form of its register operand. -/
def Obligations.LdiRule : Prop :=
  (∀ r i : Byte, decode [0b10000010#8, r, i] = .ok (.ldi r i, [])) ∧
  ((decodeOpcode 0x82#8).n = 2 ∧ (decodeOpcode 0x82#8).s = false) ∧
  (∀ (s : State) (r i : Byte), 8 ≤ r.toNat →
    exec (.ldi r i) s = .next (s.takeFault (.outOfBoundsRegister r))) ∧
  (∀ (s : State) (r i : Byte) (h : r.toNat < 8),
    exec (.ldi r i) s = .next ((s.withSlot ⟨r.toNat, h⟩ i).withPc (s.pc + 3))) ∧
  (∀ s : State, s.status = .running → s.pc < 256 → s.mem.read s.pc = 0x82#8 → 254 ≤ s.pc →
    step s = .next (s.takeFault (.outOfBoundsAddress 256)))

/-- LDI R7 sets the stack pointer with no check; a later PUSH or CALL writes at v − 1, a later POP or
RET reads at v, and only these apply the bounds (R103). -/
def Obligations.LdiMovesTheStack : Prop :=
  ∀ (s : State) (v : Byte), ∃ t, exec (.ldi 7 v) s = .next t ∧ t.slot 7 = some v ∧
    t.status = s.status ∧
    (v = 0 → ∀ r, exec (.push r) t = .next (t.takeFault (.stackExhausted (-1))) ∧
      exec (.call r) t = .next (t.takeFault (.stackExhausted (-1)))) ∧
    (∀ (r : Fin 8) (w : Byte), v ≠ 0 → r ≠ 7 → t.slot r = some w → t.pc + 2 < 256 →
      (∃ u, exec (.push (BitVec.ofNat 8 r.val)) t = .next u ∧ u.mem = t.mem.write (v.toNat - 1) w) ∧
      (∃ u, exec (.call (BitVec.ofNat 8 r.val)) t = .next u ∧
        u.mem = t.mem.write (v.toNat - 1) (BitVec.ofNat 8 (t.pc + 2)))) ∧
    (∀ r : Fin 8, v.toNat < 255 → r ≠ 7 →
      (∃ u, exec (.pop (BitVec.ofNat 8 r.val)) t = .next u ∧ u.slot r = some (t.mem.read v.toNat)) ∧
      (∃ u, exec .ret t = .next u ∧ u.pc = (t.mem.read v.toNat).toNat)) ∧
    (v.toNat = 255 → exec .ret t = .next (t.takeFault (.stackExhausted 256)))

/-- PRN (R104): the whole rule; the register's byte is appended to the output, unsigned. The fault of
an UNSET register is the spec's own choice (D1). -/
def Obligations.PrnRule : Prop :=
  (∀ r : Byte, decode [0b01000111#8, r] = .ok (.prn r, [])) ∧
  (∀ (s : State) (r : Byte), 8 ≤ r.toNat →
    exec (.prn r) s = .next (s.takeFault (.outOfBoundsRegister r))) ∧
  (∀ (s : State) (r : Byte) (h : r.toNat < 8), s.slot ⟨r.toNat, h⟩ = none →
    exec (.prn r) s = .next (s.takeFault (.uninitializedRegister ⟨r.toNat, h⟩))) ∧
  (∀ (s : State) (r v : Byte) (h : r.toNat < 8), s.slot ⟨r.toNat, h⟩ = some v →
    exec (.prn r) s = .next { s with out := s.out ++ [.num v], pc := s.pc + 2 }) ∧
  (∀ s : State, s.status = .running → s.pc = 255 → s.mem.read s.pc = 0x47#8 →
    step s = .next (s.takeFault (.outOfBoundsAddress 256)))

/-- The frame of HLT and PRN: no register, no byte of memory, and at most one event appended. -/
def Obligations.HltPrnFrame : Prop :=
  ∀ (i : Instr) (s t : State), i = .hlt ∨ (∃ r, i = .prn r) → exec i s = .next t →
    (∀ k, t.slot k = s.slot k) ∧ (∀ a, t.mem.read a = s.mem.read a) ∧
    (t.out = s.out ∨ ∃ e, t.out = s.out ++ [e]) ∧
    (i ≠ .hlt → (t.status = s.status ∧ t.fault = s.fault) ∨ (∃ c, t = s.takeFault c)) ∧
    (i = .hlt → t.fault = s.fault)

/-! ## ADD and MUL -/

/-- ADD (R124): the sum modulo 256 in the first register; the checks in their order. -/
def Obligations.AddRule : Prop :=
  (∀ a b : Byte, decode [0b10100000#8, a, b] = .ok (.add a b, [])) ∧
  ((decodeOpcode 0xA0#8).n = 2 ∧ (decodeOpcode 0xA0#8).s = false) ∧
  (∀ (s : State) (ra rb : Byte), 8 ≤ ra.toNat →
    exec (.add ra rb) s = .next (s.takeFault (.outOfBoundsRegister ra))) ∧
  (∀ (s : State) (ra rb : Byte) (ha : ra.toNat < 8), s.slot ⟨ra.toNat, ha⟩ = none →
    exec (.add ra rb) s = .next (s.takeFault (.uninitializedRegister ⟨ra.toNat, ha⟩))) ∧
  (∀ (s : State) (ra rb x : Byte) (ha : ra.toNat < 8), s.slot ⟨ra.toNat, ha⟩ = some x → 8 ≤ rb.toNat →
    exec (.add ra rb) s = .next (s.takeFault (.outOfBoundsRegister rb))) ∧
  (∀ (s : State) (ra rb x : Byte) (ha : ra.toNat < 8) (hb : rb.toNat < 8),
    s.slot ⟨ra.toNat, ha⟩ = some x → s.slot ⟨rb.toNat, hb⟩ = none →
    exec (.add ra rb) s = .next (s.takeFault (.uninitializedRegister ⟨rb.toNat, hb⟩))) ∧
  (∀ (s : State) (ra rb x y : Byte) (ha : ra.toNat < 8) (hb : rb.toNat < 8),
    s.slot ⟨ra.toNat, ha⟩ = some x → s.slot ⟨rb.toNat, hb⟩ = some y →
    exec (.add ra rb) s = .next ((s.withSlot ⟨ra.toNat, ha⟩ (x + y)).withPc (s.pc + 3))) ∧
  (∀ s : State, s.status = .running → s.pc < 256 → s.mem.read s.pc = 0xA0#8 → 254 ≤ s.pc →
    step s = .next (s.takeFault (.outOfBoundsAddress 256)))

/-- MUL (R125): the low eight bits of the product in the first register; the checks in ADD's order. -/
def Obligations.MulRule : Prop :=
  (∀ a b : Byte, decode [0b10100010#8, a, b] = .ok (.mul a b, [])) ∧
  ((decodeOpcode 0xA2#8).n = 2 ∧ (decodeOpcode 0xA2#8).s = false) ∧
  (∀ (s : State) (ra rb : Byte), 8 ≤ ra.toNat →
    exec (.mul ra rb) s = .next (s.takeFault (.outOfBoundsRegister ra))) ∧
  (∀ (s : State) (ra rb : Byte) (ha : ra.toNat < 8), s.slot ⟨ra.toNat, ha⟩ = none →
    exec (.mul ra rb) s = .next (s.takeFault (.uninitializedRegister ⟨ra.toNat, ha⟩))) ∧
  (∀ (s : State) (ra rb x : Byte) (ha : ra.toNat < 8), s.slot ⟨ra.toNat, ha⟩ = some x → 8 ≤ rb.toNat →
    exec (.mul ra rb) s = .next (s.takeFault (.outOfBoundsRegister rb))) ∧
  (∀ (s : State) (ra rb x : Byte) (ha : ra.toNat < 8) (hb : rb.toNat < 8),
    s.slot ⟨ra.toNat, ha⟩ = some x → s.slot ⟨rb.toNat, hb⟩ = none →
    exec (.mul ra rb) s = .next (s.takeFault (.uninitializedRegister ⟨rb.toNat, hb⟩))) ∧
  (∀ (s : State) (ra rb x y : Byte) (ha : ra.toNat < 8) (hb : rb.toNat < 8),
    s.slot ⟨ra.toNat, ha⟩ = some x → s.slot ⟨rb.toNat, hb⟩ = some y →
    exec (.mul ra rb) s = .next ((s.withSlot ⟨ra.toNat, ha⟩ (x * y)).withPc (s.pc + 3))) ∧
  (∀ s : State, s.status = .running → s.pc < 256 → s.mem.read s.pc = 0xA2#8 → 254 ≤ s.pc →
    step s = .next (s.takeFault (.outOfBoundsAddress 256)))

/-- The frame of LDI, ADD and MUL: their destination register, which is their first operand, and
nothing else of the register file; no byte of memory, no event. -/
def Obligations.LdiAddMulFrame : Prop :=
  ∀ (i : Instr) (r x : Byte) (s t : State), i = .ldi r x ∨ i = .add r x ∨ i = .mul r x →
    exec i s = .next t →
    (∀ k : Fin 8, k.val ≠ r.toNat → t.slot k = s.slot k) ∧ (∀ a, t.mem.read a = s.mem.read a) ∧
    t.out = s.out ∧ ((t.status = s.status ∧ t.fault = s.fault) ∨ ∃ c, t = s.takeFault c)

/-! ## PUSH and POP -/

/-- PUSH (R141): the whole rule. The stack check comes first; the register is read after SP moved, so
PUSH R7 stores the new SP, the spec's own choice (D23). -/
def Obligations.PushRule : Prop :=
  (∀ r : Byte, decode [0b01000101#8, r] = .ok (.push r, [])) ∧
  (∀ (s : State) (r : Byte), s.slot 7 = some 0 →
    exec (.push r) s = .next (s.takeFault (.stackExhausted (-1)))) ∧
  (∀ (s : State) (r sp : Byte), s.slot 7 = some sp → sp ≠ 0 → 8 ≤ r.toNat →
    exec (.push r) s = .next (s.takeFault (.outOfBoundsRegister r))) ∧
  (∀ (s : State) (r sp : Byte) (h : r.toNat < 8), s.slot 7 = some sp → sp ≠ 0 → r ≠ 7 →
    s.slot ⟨r.toNat, h⟩ = none →
    exec (.push r) s = .next (s.takeFault (.uninitializedRegister ⟨r.toNat, h⟩))) ∧
  (∀ (s : State) (r sp v : Byte) (h : r.toNat < 8), s.slot 7 = some sp → sp ≠ 0 → r ≠ 7 →
    s.slot ⟨r.toNat, h⟩ = some v →
    exec (.push r) s = .next
      (((s.withSlot 7 (sp - 1)).withMem (s.mem.write (sp.toNat - 1) v)).withPc (s.pc + 2))) ∧
  (∀ (s : State) (sp : Byte), s.slot 7 = some sp → sp ≠ 0 →
    exec (.push 7) s = .next
      (((s.withSlot 7 (sp - 1)).withMem (s.mem.write (sp.toNat - 1) (sp - 1))).withPc (s.pc + 2))) ∧
  (∀ s : State, s.status = .running → s.pc = 255 → s.mem.read s.pc = 0x45#8 →
    step s = .next (s.takeFault (.outOfBoundsAddress 256)))

/-- POP (R142): the whole rule. The register is written before SP moves, so POP R7 leaves the popped
byte plus one, the spec's own choice (D23); memory keeps the popped byte. That POP runs at every SP
but 255, with no check for an empty stack, is the spec's own choice too (D24; both
notes/assumptions/14.md). -/
def Obligations.PopRule : Prop :=
  (∀ r : Byte, decode [0b01000110#8, r] = .ok (.pop r, [])) ∧
  (∀ (s : State) (r sp : Byte), s.slot 7 = some sp → 8 ≤ r.toNat →
    exec (.pop r) s = .next (s.takeFault (.outOfBoundsRegister r))) ∧
  (∀ (s : State) (r : Byte), r.toNat < 8 → r ≠ 7 → s.slot 7 = some 255 →
    exec (.pop r) s = .next (s.takeFault (.stackExhausted 256))) ∧
  (∀ (s : State) (r sp : Byte) (h : r.toNat < 8), r ≠ 7 → s.slot 7 = some sp → sp ≠ 255 →
    exec (.pop r) s = .next
      (((s.withSlot ⟨r.toNat, h⟩ (s.mem.read sp.toNat)).withSlot 7 (sp + 1)).withPc (s.pc + 2))) ∧
  (∀ (s : State) (sp : Byte), s.slot 7 = some sp → s.mem.read sp.toNat = 255 →
    exec (.pop 7) s = .next (s.takeFault (.stackExhausted 256))) ∧
  (∀ (s : State) (sp : Byte), s.slot 7 = some sp → s.mem.read sp.toNat ≠ 255 →
    exec (.pop 7) s = .next ((s.withSlot 7 (s.mem.read sp.toNat + 1)).withPc (s.pc + 2))) ∧
  (∀ s : State, s.status = .running → s.pc = 255 → s.mem.read s.pc = 0x46#8 →
    step s = .next (s.takeFault (.outOfBoundsAddress 256)))

/-- The stack's bounds (R143): a PUSH or CALL at SP = 0 and a RET or POP that would leave 256 fault
`StackExhausted` with the value SP would have taken, and these are the only bounds: no instruction
records `StackExhausted` otherwise. POP R7 counts from the popped byte (R142), the spec's own choice
(D23; notes/assumptions/14.md). -/
def Obligations.StackBoundsFault : Prop :=
  (∀ (s : State) (r : Byte), s.slot 7 = some 0 →
    exec (.push r) s = .next (s.takeFault (.stackExhausted (-1))) ∧
    exec (.call r) s = .next (s.takeFault (.stackExhausted (-1)))) ∧
  (∀ s : State, s.slot 7 = some 255 → exec .ret s = .next (s.takeFault (.stackExhausted 256)) ∧
    ∀ r : Byte, r.toNat < 7 → exec (.pop r) s = .next (s.takeFault (.stackExhausted 256))) ∧
  (∀ (s : State) (sp : Byte), s.slot 7 = some sp → s.mem.read sp.toNat = 255 →
    exec (.pop 7) s = .next (s.takeFault (.stackExhausted 256))) ∧
  (∀ (i : Instr) (s : State) (v : Int), exec i s = .next (s.takeFault (.stackExhausted v)) → s.fault = none →
    (v = -1 ∧ s.slot 7 = some 0 ∧ ∃ r, i = .push r ∨ i = .call r) ∨
    (v = 256 ∧ ((s.slot 7 = some 255 ∧ (i = .ret ∨ ∃ r, i = .pop r ∧ r.toNat < 7)) ∨
      (i = .pop 7 ∧ ∃ sp, s.slot 7 = some sp ∧ s.mem.read sp.toNat = 255))))

/-- The stack pointer never wraps (R127, R143): a stack instruction that does not fault moves it by
exactly one as a number (R141, R142, R160, R162), or, for POP R7, to one past the popped byte, the
spec's own choice (D23; notes/assumptions/14.md). -/
def Obligations.StackPointerNeverWraps : Prop :=
  ∀ (s t : State) (sp : Byte) (i : Instr), s.slot 7 = some sp → s.status ≠ .faulted →
    exec i s = .next t → t.status ≠ .faulted →
    ((∃ r, i = .push r ∨ i = .call r) → ∃ sp', t.slot 7 = some sp' ∧ sp'.toNat + 1 = sp.toNat) ∧
    (i = .ret ∨ (∃ r, i = .pop r ∧ r ≠ 7) → ∃ sp', t.slot 7 = some sp' ∧ sp'.toNat = sp.toNat + 1) ∧
    (i = .pop 7 → ∃ sp', t.slot 7 = some sp' ∧ sp'.toNat = (s.mem.read sp.toNat).toNat + 1)

/-- PUSH then POP to a different register keeps the value and restores the stack pointer (R145). -/
def Obligations.PushPopRoundTrip : Prop :=
  ∀ (s : State) (k j : Fin 8) (v sp : Byte), s.mem.wf → k ≠ 7 → j ≠ 7 → k ≠ j →
    s.slot k = some v → s.slot 7 = some sp → sp ≠ 0 →
    ∃ t u, exec (.push (BitVec.ofNat 8 k.val)) s = .next t ∧
      exec (.pop (BitVec.ofNat 8 j.val)) t = .next u ∧
      u.slot j = some v ∧ u.slot k = some v ∧ u.slot 7 = some sp

/-- The frame of PUSH and CALL: of the register file SP alone; of memory the one byte at SP − 1, the
address the meaning stores to; no event. -/
def Obligations.PushCallFrame : Prop :=
  ∀ (i : Instr) (s t : State), (∃ r, i = .push r ∨ i = .call r) → exec i s = .next t →
    (∀ k : Fin 8, k ≠ 7 → t.slot k = s.slot k) ∧
    (∀ (sp sp1 : Byte), s.getSp = .ok sp → checkSp (sp.toNat - 1) = .ok sp1 →
      ∀ a, a ≠ sp1.toNat → t.mem.read a = s.mem.read a) ∧
    ((∀ sp sp1 : Byte, s.getSp = .ok sp → checkSp (sp.toNat - 1) ≠ .ok sp1) →
      ∀ a, t.mem.read a = s.mem.read a) ∧
    t.out = s.out ∧ ((t.status = s.status ∧ t.fault = s.fault) ∨ ∃ c, t = s.takeFault c)

/-- The frame of POP and RET: POP's operand register and SP; no byte of memory, no event. -/
def Obligations.PopRetFrame : Prop :=
  ∀ (i : Instr) (s t : State), (∃ r, i = .pop r) ∨ i = .ret → exec i s = .next t →
    (∀ k : Fin 8, k ≠ 7 → (∀ r, i = .pop r → r.toNat ≠ k.val) → t.slot k = s.slot k) ∧
    (∀ a, t.mem.read a = s.mem.read a) ∧
    t.out = s.out ∧ ((t.status = s.status ∧ t.fault = s.fault) ∨ ∃ c, t = s.takeFault c)

/-! ## CALL and RET -/

/-- CALL (R160, R161): the whole rule. The checks come in their order; the target register is read
after SP moved, so CALL R7 jumps to the new SP. That order and the fault of a return address of 256
are the spec's own choices (D23, D9). -/
def Obligations.CallRule : Prop :=
  (∀ r : Byte, decode [0b01010000#8, r] = .ok (.call r, [])) ∧
  (∀ (s : State) (r : Byte), s.slot 7 = some 0 →
    exec (.call r) s = .next (s.takeFault (.stackExhausted (-1)))) ∧
  (∀ (s : State) (r sp : Byte), s.slot 7 = some sp → sp ≠ 0 → 255 < s.pc + 2 →
    exec (.call r) s = .next (s.takeFault (.outOfBoundsAddress (s.pc + 2)))) ∧
  (∀ (s : State) (r sp : Byte), s.slot 7 = some sp → sp ≠ 0 → s.pc + 2 ≤ 255 → 8 ≤ r.toNat →
    exec (.call r) s = .next (s.takeFault (.outOfBoundsRegister r))) ∧
  (∀ (s : State) (r sp : Byte) (h : r.toNat < 8), s.slot 7 = some sp → sp ≠ 0 → s.pc + 2 ≤ 255 →
    r ≠ 7 → s.slot ⟨r.toNat, h⟩ = none →
    exec (.call r) s = .next (s.takeFault (.uninitializedRegister ⟨r.toNat, h⟩))) ∧
  (∀ (s : State) (r sp v : Byte) (h : r.toNat < 8), s.slot 7 = some sp → sp ≠ 0 → s.pc + 2 ≤ 255 →
    r ≠ 7 → s.slot ⟨r.toNat, h⟩ = some v →
    exec (.call r) s = .next
      (((s.withSlot 7 (sp - 1)).withMem (s.mem.write (sp.toNat - 1) (BitVec.ofNat 8 (s.pc + 2)))).withPc (v.toNat))) ∧
  (∀ (s : State) (sp : Byte), s.slot 7 = some sp → sp ≠ 0 → s.pc + 2 ≤ 255 →
    exec (.call 7) s = .next
      (((s.withSlot 7 (sp - 1)).withMem (s.mem.write (sp.toNat - 1) (BitVec.ofNat 8 (s.pc + 2)))).withPc (sp.toNat - 1))) ∧
  (∀ s : State, s.status = .running → s.pc = 255 → s.mem.read s.pc = 0x50#8 →
    step s = .next (s.takeFault (.outOfBoundsAddress 256)))

/-- RET (R162): the whole rule: the byte at SP, whoever stored it, becomes the pc; memory keeps it. No
check for an empty stack is the spec's own choice (D24). -/
def Obligations.RetRule : Prop :=
  decode [0b00010001#8] = .ok (.ret, []) ∧
  (∀ s : State, s.slot 7 = some 255 → exec .ret s = .next (s.takeFault (.stackExhausted 256))) ∧
  (∀ (s : State) (sp : Byte), s.slot 7 = some sp → sp ≠ 255 →
    exec .ret s = .next ((s.withSlot 7 (sp + 1)).withPc (s.mem.read sp.toNat).toNat)) ∧
  (∀ s : State, s.status = .running → s.pc < 256 → s.mem.read s.pc = 0x11#8 → step s = exec .ret s)

/-- The call and return law (R163): whatever a subroutine does, if it leaves SP and the return byte as
CALL left them, its RET resumes after the CALL and its operand with SP as before the CALL. -/
def Obligations.CallReturnLaw : Prop :=
  ∀ (s : State) (r sp v : Byte) (h : r.toNat < 8), s.mem.wf → s.slot 7 = some sp → sp ≠ 0 →
    s.pc + 2 ≤ 255 → r ≠ 7 → s.slot ⟨r.toNat, h⟩ = some v →
    ∃ t, exec (.call r) s = .next t ∧ t.pc = v.toNat ∧
      ∀ u : State, u.slot 7 = t.slot 7 →
        u.mem.read (sp.toNat - 1) = t.mem.read (sp.toNat - 1) →
        ∃ w, exec .ret u = .next w ∧ w.pc = s.pc + 2 ∧ w.slot 7 = some sp

/-! ## The decoder -/

/-- The decoder's four outputs (R83, R84), for every opcode byte, legal or not: `n` and `s` are bits of
the byte; `ins` is the operation whose byte it is, and ILLEGAL for every other byte; `alu_op` is ADD
for ADD, MUL for MUL, and nothing for the rest. The byte of each operation is R65's, from general
knowledge (D3; notes/assumptions/13.md); the block's interface is the spec's own choice (D17). -/
def Obligations.DecoderOutputs : Prop :=
  ∀ op : Byte,
    (decodeOpcode op).n = op.toNat / 64 ∧
    ((decodeOpcode op).s = true ↔ op.toNat / 16 % 2 = 1) ∧
    (∀ ins : Op, (decodeOpcode op).ins = some ins ↔ op = ins.byte) ∧
    ((decodeOpcode op).aluOp =
      if op = 0xA0#8 then some .add else if op = 0xA2#8 then some .mul else none)
end

