-- ==== Sys2Proof/Laws/Memory.lean ====
section
/-! SUPPORT. Laws/Memory.lean: what the memory operations do, and that each keeps the canonical form.
Later proofs cite these and never unfold the cell lists. -/

namespace Sys2Proof.Machine

/-- The canonical form, on a cell list. -/
abbrev CellsOk (cs : List Host.Cell) : Prop :=
  cs.Pairwise (fun c d => c.1 < d.1) ∧ ∀ c ∈ cs, c.1 < Config.memSize ∧ c.2 ≠ Memory.blank

theorem readCells_above {cs : List Host.Cell} {a : Nat} (h : ∀ c ∈ cs, a < c.1) :
    readCells cs a = Memory.blank := by
  induction cs with
  | nil => rfl
  | cons c cs ih =>
    have hc := h c (by simp)
    have ih := ih (fun d hd => h d (List.mem_cons_of_mem _ hd))
    obtain ⟨k, w⟩ := c
    have hk : a ≠ k := by simp at hc; omega
    simp [readCells, hk, ih]

theorem readCells_consCell (a b : Nat) (v : Byte) (cs : List Host.Cell)
    (h : ∀ c ∈ cs, a < c.1) :
    readCells (consCell a v cs) b = if b = a then v else readCells cs b := by
  unfold consCell
  split
  · subst v
    split
    · subst b; exact readCells_above h
    · rfl
  · simp [readCells]

theorem readCells_writeCells {cs : List Host.Cell} (a b : Nat) (v : Byte)
    (h : cs.Pairwise (fun c d => c.1 < d.1)) :
    readCells (writeCells cs a v) b = if b = a then v else readCells cs b := by
  induction cs with
  | nil => exact readCells_consCell a b v [] (by simp)
  | cons c cs ih =>
    obtain ⟨k, w⟩ := c
    rw [List.pairwise_cons] at h
    unfold writeCells
    split
    · rename_i hak
      refine readCells_consCell a b v _ fun d hd => ?_
      rcases List.mem_cons.mp hd with rfl | hd
      · exact hak
      · exact Nat.lt_trans hak (h.1 d hd)
    · split
      · rename_i _ hak
        subst a
        rw [readCells_consCell k b v cs h.1]
        by_cases hb : b = k <;> simp [readCells, hb]
      · by_cases hb : b = k
        · subst b
          rename_i hak
          simp [readCells, Ne.symm hak]
        · simp [readCells, hb, ih h.2]

theorem consCell_mem {a : Nat} {v : Byte} {cs : List Host.Cell} {c : Host.Cell}
    (h : c ∈ consCell a v cs) : (c = (a, v) ∧ v ≠ Memory.blank) ∨ c ∈ cs := by
  unfold consCell at h
  split at h
  · exact .inr h
  · rename_i hv
    rcases List.mem_cons.mp h with h | h
    · exact .inl ⟨h, hv⟩
    · exact .inr h

theorem writeCells_mem {cs : List Host.Cell} {a : Nat} {v : Byte} {c : Host.Cell}
    (h : c ∈ writeCells cs a v) : (c = (a, v) ∧ v ≠ Memory.blank) ∨ c ∈ cs := by
  induction cs with
  | nil => exact consCell_mem h
  | cons d cs ih =>
    obtain ⟨k, w⟩ := d
    unfold writeCells at h
    split at h
    · exact consCell_mem h
    · split at h
      · exact (consCell_mem h).imp_right (List.mem_cons_of_mem _)
      · rcases List.mem_cons.mp h with h | h
        · exact .inr (by simp [h])
        · exact (ih h).imp_right (List.mem_cons_of_mem _)

theorem consCell_pairwise {a : Nat} {v : Byte} {cs : List Host.Cell}
    (h : cs.Pairwise (fun c d => c.1 < d.1)) (ha : ∀ c ∈ cs, a < c.1) :
    (consCell a v cs).Pairwise (fun c d => c.1 < d.1) := by
  unfold consCell
  split
  · exact h
  · exact List.pairwise_cons.mpr ⟨ha, h⟩

theorem writeCells_pairwise {cs : List Host.Cell} (a : Nat) (v : Byte)
    (h : cs.Pairwise (fun c d => c.1 < d.1)) :
    (writeCells cs a v).Pairwise (fun c d => c.1 < d.1) := by
  induction cs with
  | nil => exact consCell_pairwise h (by simp)
  | cons c cs ih =>
    obtain ⟨k, w⟩ := c
    have h' := List.pairwise_cons.mp h
    unfold writeCells
    split
    · rename_i hak
      refine consCell_pairwise h fun d hd => ?_
      rcases List.mem_cons.mp hd with rfl | hd
      · exact hak
      · exact Nat.lt_trans hak (h'.1 d hd)
    · split
      · rename_i _ hak
        subst a
        exact consCell_pairwise h'.2 h'.1
      · rename_i hlt hne
        refine List.pairwise_cons.mpr ⟨fun d hd => ?_, ih h'.2⟩
        rcases writeCells_mem hd with ⟨rfl, -⟩ | hd
        · simp; omega
        · exact h'.1 d hd

/-- A write inside the address space keeps the canonical form. -/
theorem Memory.write_wf {m : Memory} {a : Nat} (v : Byte) (h : m.wf) (ha : a < Config.memSize) :
    (m.write a v).wf := by
  refine ⟨writeCells_pairwise a v h.1, fun c hc => ?_⟩
  rcases writeCells_mem hc with ⟨rfl, hv⟩ | hc
  · exact ⟨ha, hv⟩
  · exact h.2 c hc

/-- Reading after a write: the byte written at its address, and every other cell as it was (R42). -/
theorem Memory.read_write {m : Memory} (a b : Nat) (v : Byte) (h : m.wf) :
    (m.write a v).read b = if b = a then v else m.read b :=
  readCells_writeCells a b v h.1

/-- A write leaves every other cell as it was, in any memory. -/
theorem Memory.read_write_other (m : Memory) {a b : Nat} (v : Byte) (hb : b ≠ a) :
    (m.write a v).read b = m.read b := by
  obtain ⟨cs⟩ := m
  have hcons : ∀ ds : List Host.Cell, readCells (consCell a v ds) b = readCells ds b := by
    intro ds; unfold consCell; split <;> simp [readCells, hb]
  simp only [Memory.read, Memory.write]
  induction cs with
  | nil => exact hcons []
  | cons c cs ih =>
    obtain ⟨k, w⟩ := c
    unfold writeCells
    split
    · exact hcons _
    · split
      · rename_i _ hak
        subst a
        simp [hcons, readCells, hb]
      · simp [readCells, ih]

/-- Memory right after reset is in canonical form. -/
theorem Memory.empty_wf : Memory.wf ⟨[]⟩ := by decide

@[simp] theorem Memory.read_empty (a : Nat) : Memory.read ⟨[]⟩ a = 0#8 := rfl

/-- Placing bytes keeps the canonical form. -/
theorem Memory.place_wf {m : Memory} (a : Nat) (bs : List Byte) (h : m.wf) : (m.place a bs).wf := by
  induction bs generalizing m a with
  | nil => exact h
  | cons b bs ih =>
    unfold Memory.place
    split
    · rename_i ha
      exact ih (a + 1) (Memory.write_wf b h ha)
    · exact h

/-- Placed bytes are read where they were placed, and every other cell is as it was. -/
theorem Memory.read_place {m : Memory} (a b : Nat) (bs : List Byte) (h : m.wf)
    (hfit : a + bs.length ≤ Config.memSize) :
    (m.place a bs).read b = if a ≤ b ∧ b < a + bs.length then bs.getD (b - a) 0 else m.read b := by
  induction bs generalizing m a with
  | nil => simp [Memory.place]
  | cons c bs ih =>
    simp only [List.length_cons, Config.memSize] at hfit ⊢
    have ha : a < Config.memSize := by simp; omega
    rw [Memory.place, if_pos ha, ih (a + 1) (Memory.write_wf c h ha) (by simp; omega),
      Memory.read_write a b c h]
    by_cases hb : b = a
    · subst b; simp
    · by_cases hin : a + 1 ≤ b ∧ b < a + 1 + bs.length
      · obtain ⟨d, hd⟩ : ∃ d, b = a + 1 + d := ⟨b - (a + 1), by omega⟩
        subst hd
        rw [if_pos hin, if_pos (by omega)]
        simp [show a + 1 + d - (a + 1) = d by omega, show a + 1 + d - a = d + 1 by omega]
      · rw [if_neg hin, if_neg hb, if_neg (by omega)]

theorem cells_ext : ∀ {cs ds : List Host.Cell}, CellsOk cs → CellsOk ds →
    (∀ a, readCells cs a = readCells ds a) → cs = ds
  | [], [], _, _, _ => rfl
  | [], (k, w) :: ds, _, hd, h => by
    have := h k
    simp [readCells] at this
    exact absurd this.symm (hd.2 (k, w) (by simp)).2
  | (k, w) :: cs, [], hc, _, h => by
    have := h k
    simp [readCells] at this
    exact absurd this (hc.2 (k, w) (by simp)).2
  | (k, w) :: cs, (l, x) :: ds, hc, hd, h => by
    have hcs := List.pairwise_cons.mp hc.1
    have hds := List.pairwise_cons.mp hd.1
    have hw := (hc.2 (k, w) (by simp)).2
    have hx := (hd.2 (l, x) (by simp)).2
    have hkl : k = l := by
      rcases Nat.lt_trichotomy k l with hlt | heq | hgt
      · have := h k
        rw [readCells_above (cs := (l, x) :: ds) (a := k)] at this
        · simp [readCells] at this; exact absurd this hw
        · intro c hmem
          rcases List.mem_cons.mp hmem with rfl | hmem
          · exact hlt
          · exact Nat.lt_trans hlt (hds.1 c hmem)
      · exact heq
      · have := h l
        rw [readCells_above (cs := (k, w) :: cs) (a := l)] at this
        · simp [readCells] at this; exact absurd this.symm hx
        · intro c hmem
          rcases List.mem_cons.mp hmem with rfl | hmem
          · exact hgt
          · exact Nat.lt_trans hgt (hcs.1 c hmem)
    subst hkl
    have hwx : w = x := by have := h k; simpa [readCells] using this
    subst hwx
    congr 1
    refine cells_ext ⟨hcs.2, fun c hm => hc.2 c (by simp [hm])⟩
      ⟨hds.2, fun c hm => hd.2 c (by simp [hm])⟩ fun a => ?_
    by_cases ha : a = k
    · subst a; rw [readCells_above hcs.1, readCells_above hds.1]
    · have := h a; simpa [readCells, ha] using this

/-- A canonical memory reads blank past its last cell. -/
theorem Memory.read_outside {m : Memory} {a : Nat} (h : m.wf) (ha : Config.memSize ≤ a) :
    m.read a = Memory.blank := by
  obtain ⟨cs⟩ := m
  have h2 := h.2
  simp only [Memory.read]
  clear h
  induction cs with
  | nil => rfl
  | cons c cs ih =>
    obtain ⟨k, w⟩ := c
    have hk : a ≠ k := by have := (h2 (k, w) (by simp)).1; simp at this ha; omega
    simp [readCells, hk, ih (fun d hd => h2 d (by simp [hd]))]

end Sys2Proof.Machine
end

