-- ==== Sys2Proof/Laws/State.lean ====
section
/-! SUPPORT. Laws/State.lean: one lemma per field per update of the state, so that no later proof
unfolds a record update. -/

namespace Sys2Proof.Machine

variable (s : State) (k j : Fin 8) (v : Byte) (p : Nat) (e : Event) (c : Cause) (m : Memory)

@[simp] theorem State.withMem_mem : (s.withMem m).mem = m := rfl
@[simp] theorem State.withMem_regs : (s.withMem m).regs = s.regs := rfl
@[simp] theorem State.withMem_pc : (s.withMem m).pc = s.pc := rfl
@[simp] theorem State.withMem_status : (s.withMem m).status = s.status := rfl
@[simp] theorem State.withMem_fault : (s.withMem m).fault = s.fault := rfl
@[simp] theorem State.withMem_out : (s.withMem m).out = s.out := rfl

@[simp] theorem State.withSlot_mem : (s.withSlot k v).mem = s.mem := rfl
@[simp] theorem State.withSlot_pc : (s.withSlot k v).pc = s.pc := rfl
@[simp] theorem State.withSlot_status : (s.withSlot k v).status = s.status := rfl
@[simp] theorem State.withSlot_fault : (s.withSlot k v).fault = s.fault := rfl
@[simp] theorem State.withSlot_out : (s.withSlot k v).out = s.out := rfl
@[simp] theorem State.withSlot_regs : (s.withSlot k v).regs = s.regs.set k (some v) := rfl

@[simp] theorem State.withPc_mem : (s.withPc p).mem = s.mem := rfl
@[simp] theorem State.withPc_regs : (s.withPc p).regs = s.regs := rfl
@[simp] theorem State.withPc_pc : (s.withPc p).pc = p := rfl
@[simp] theorem State.withPc_status : (s.withPc p).status = s.status := rfl
@[simp] theorem State.withPc_fault : (s.withPc p).fault = s.fault := rfl
@[simp] theorem State.withPc_out : (s.withPc p).out = s.out := rfl

@[simp] theorem State.emit_mem : (s.emit e).mem = s.mem := rfl
@[simp] theorem State.emit_regs : (s.emit e).regs = s.regs := rfl
@[simp] theorem State.emit_pc : (s.emit e).pc = s.pc := rfl
@[simp] theorem State.emit_status : (s.emit e).status = s.status := rfl
@[simp] theorem State.emit_fault : (s.emit e).fault = s.fault := rfl
@[simp] theorem State.emit_out : (s.emit e).out = s.out ++ [e] := rfl

@[simp] theorem State.takeFault_mem : (s.takeFault c).mem = s.mem := rfl
@[simp] theorem State.takeFault_regs : (s.takeFault c).regs = s.regs := rfl
@[simp] theorem State.takeFault_pc : (s.takeFault c).pc = s.pc := rfl
@[simp] theorem State.takeFault_status : (s.takeFault c).status = .faulted := rfl
@[simp] theorem State.takeFault_fault : (s.takeFault c).fault = some ⟨c, s.pc⟩ := rfl
@[simp] theorem State.takeFault_out : (s.takeFault c).out = s.out := rfl

/-! A slot is read from the register file alone. -/

theorem State.slot_congr {s t : State} (h : t.regs = s.regs) (k : Fin 8) : t.slot k = s.slot k := by
  simp [State.slot, h]

@[simp] theorem State.slot_withMem : (s.withMem m).slot k = s.slot k := rfl
@[simp] theorem State.slot_withPc : (s.withPc p).slot k = s.slot k := rfl
@[simp] theorem State.slot_emit : (s.emit e).slot k = s.slot k := rfl
@[simp] theorem State.slot_takeFault : (s.takeFault c).slot k = s.slot k := rfl
@[simp] theorem State.slot_mk (m : Memory) (r : Vector (Option Byte) 8) (q : Nat) (st : Status)
    (f : Option FaultRecord) (o : List Event) : State.slot ⟨m, r, q, st, f, o⟩ k = r[k] := rfl

theorem State.slot_withSlot : (s.withSlot k v).slot j = if j = k then some v else s.slot j := by
  simp only [State.slot, State.withSlot, Fin.getElem_fin, Vector.getElem_set, Fin.ext_iff, eq_comm]

@[simp] theorem State.slot_withSlot_same : (s.withSlot k v).slot k = some v := by
  simp [State.slot_withSlot]

/-- The later of two writes to a slot is the one that stays. -/
@[simp] theorem State.withSlot_withSlot (w : Byte) : (s.withSlot k v).withSlot k w = s.withSlot k w := by
  simp [State.withSlot]

theorem State.slot_withSlot_other (h : j ≠ k) : (s.withSlot k v).slot j = s.slot j := by
  simp [State.slot_withSlot, h]

/-- The state after reset, slot by slot (R36). -/
theorem State.slot_reset : State.reset.slot k = if k = 7 then some 0xF4#8 else none := by
  revert k; decide

end Sys2Proof.Machine
end

