-- ==== Sys2Proof/Laws/Ops.lean ====
section
/-! SUPPORT. Laws/Ops.lean: for each shared operation, one lemma that says once everything it can
answer. Later proofs cite these instead of unfolding the operation. -/

namespace Sys2Proof.Machine

/-! ## Sequencing: what a handler's `do` block means -/

@[simp] theorem ok_bind {α β : Type} (a : α) (f : α → Except Cause β) :
    ((Except.ok a : Except Cause α) >>= f) = f a := rfl

@[simp] theorem error_bind {α β : Type} (c : Cause) (f : α → Except Cause β) :
    ((Except.error c : Except Cause α) >>= f) = .error c := rfl

/-- A sequence answers a value just when its first part does and the rest does after it. -/
theorem bind_eq_ok {α β : Type} {x : Except Cause α} {f : α → Except Cause β} {b : β} :
    (x >>= f) = .ok b ↔ ∃ a, x = .ok a ∧ f a = .ok b := by
  cases x <;> simp

/-- A sequence raises just when its first part does or the rest does after it. -/
theorem bind_eq_error {α β : Type} {x : Except Cause α} {f : α → Except Cause β} {c : Cause} :
    (x >>= f) = .error c ↔ x = .error c ∨ ∃ a, x = .ok a ∧ f a = .error c := by
  cases x <;> simp

/-! ## Memory -/

theorem State.memRead_inside (s : State) {a : Nat} (h : a < 256) : s.memRead a = .ok (s.mem.read a) := by
  simp [State.memRead, h]

theorem State.memRead_outside (s : State) {a : Nat} (h : 256 ≤ a) :
    s.memRead a = .error (.outOfBoundsAddress a) := by
  simp [State.memRead, Nat.not_lt.mpr h]

/-- A read at the address a byte holds never faults (R142, R162). -/
@[simp] theorem State.memRead_byte (s : State) (b : Byte) :
    s.memRead b.toNat = .ok (s.mem.read b.toNat) := s.memRead_inside b.isLt

theorem State.memRead_eq_ok {s : State} {a : Nat} {v : Byte} :
    s.memRead a = .ok v ↔ a < 256 ∧ v = s.mem.read a := by
  unfold State.memRead; split <;> simp_all [eq_comm]

theorem State.memRead_eq_error {s : State} {a : Nat} {c : Cause} :
    s.memRead a = .error c ↔ 256 ≤ a ∧ c = .outOfBoundsAddress a := by
  unfold State.memRead; split <;> simp_all [eq_comm]

theorem State.memWrite_inside (s : State) {a : Nat} (v : Byte) (h : a < 256) :
    s.memWrite a v = .ok (s.withMem (s.mem.write a v)) := by
  simp [State.memWrite, h]

/-- A write at the address a byte holds never faults (R141). -/
@[simp] theorem State.memWrite_byte (s : State) (b v : Byte) :
    s.memWrite b.toNat v = .ok (s.withMem (s.mem.write b.toNat v)) := s.memWrite_inside v b.isLt

theorem State.memWrite_eq_ok {s t : State} {a : Nat} {v : Byte} :
    s.memWrite a v = .ok t ↔ a < 256 ∧ t = s.withMem (s.mem.write a v) := by
  unfold State.memWrite; split <;> simp_all [eq_comm]

theorem State.memWrite_eq_error {s : State} {a : Nat} {v : Byte} {c : Cause} :
    s.memWrite a v = .error c ↔ 256 ≤ a ∧ c = .outOfBoundsAddress a := by
  unfold State.memWrite; split <;> simp_all [eq_comm]

/-! ## Registers -/

theorem regIndex_inside {o : Byte} (h : o.toNat < 8) : regIndex o = .ok ⟨o.toNat, h⟩ := by
  simp [regIndex, h]

theorem regIndex_outside {o : Byte} (h : 8 ≤ o.toNat) : regIndex o = .error (.outOfBoundsRegister o) := by
  simp [regIndex, Nat.not_lt.mpr h]

theorem regIndex_eq_ok {o : Byte} {k : Fin 8} : regIndex o = .ok k ↔ o.toNat = k.val := by
  unfold regIndex
  split
  · simp [Fin.ext_iff]
  · have := k.isLt
    simp only [Config.numRegs] at *
    simp; omega

theorem regIndex_eq_error {o : Byte} {c : Cause} :
    regIndex o = .error c ↔ 8 ≤ o.toNat ∧ c = .outOfBoundsRegister o := by
  unfold regIndex; split <;> simp_all [eq_comm]

/-- The operand byte that names slot `k`. -/
@[simp] theorem regIndex_slot (k : Fin 8) : regIndex (BitVec.ofNat 8 k.val) = .ok k := by
  revert k; decide

@[simp] theorem slotValue_some (k : Fin 8) (v : Byte) : slotValue k (some v) = .ok v := rfl
@[simp] theorem slotValue_none (k : Fin 8) : slotValue k none = .error (.uninitializedRegister k) := rfl

theorem slotValue_eq_ok {k : Fin 8} {o : Option Byte} {v : Byte} : slotValue k o = .ok v ↔ o = some v := by
  cases o <;> simp

theorem slotValue_eq_error {k : Fin 8} {o : Option Byte} {c : Cause} :
    slotValue k o = .error c ↔ o = none ∧ c = .uninitializedRegister k := by
  cases o <;> simp [eq_comm]

theorem State.getReg_outside (s : State) {o : Byte} (h : 8 ≤ o.toNat) :
    s.getReg o = .error (.outOfBoundsRegister o) := by
  simp [State.getReg, regIndex_outside h]

theorem State.getReg_inside (s : State) {o : Byte} (h : o.toNat < 8) :
    s.getReg o = slotValue ⟨o.toNat, h⟩ (s.slot ⟨o.toNat, h⟩) := by
  simp [State.getReg, regIndex_inside h]

/-- A register read looks at the register file alone. -/
@[simp] theorem State.getReg_withMem (s : State) (m : Memory) (o : Byte) : (s.withMem m).getReg o = s.getReg o := rfl

@[simp] theorem State.getReg_slot (s : State) (k : Fin 8) :
    s.getReg (BitVec.ofNat 8 k.val) = slotValue k (s.slot k) := by
  simp [State.getReg]

/-- Everything a register read can answer (R23). -/
theorem State.getReg_eq_ok {s : State} {o v : Byte} :
    s.getReg o = .ok v ↔ ∃ k : Fin 8, o.toNat = k.val ∧ s.slot k = some v := by
  simp [State.getReg, bind_eq_ok, regIndex_eq_ok, slotValue_eq_ok]

theorem State.getReg_eq_error {s : State} {o : Byte} {c : Cause} :
    s.getReg o = .error c ↔ (8 ≤ o.toNat ∧ c = .outOfBoundsRegister o) ∨
      ∃ k : Fin 8, o.toNat = k.val ∧ s.slot k = none ∧ c = .uninitializedRegister k := by
  simp [State.getReg, bind_eq_error, regIndex_eq_ok, regIndex_eq_error, slotValue_eq_error]

theorem State.setReg_outside (s : State) {o : Byte} (v : Byte) (h : 8 ≤ o.toNat) :
    s.setReg o v = .error (.outOfBoundsRegister o) := by
  simp [State.setReg, regIndex_outside h]

theorem State.setReg_inside (s : State) {o : Byte} (v : Byte) (h : o.toNat < 8) :
    s.setReg o v = .ok (s.withSlot ⟨o.toNat, h⟩ v) := by
  simp [State.setReg, regIndex_inside h]

@[simp] theorem State.setReg_slot (s : State) (k : Fin 8) (v : Byte) :
    s.setReg (BitVec.ofNat 8 k.val) v = .ok (s.withSlot k v) := by
  simp [State.setReg]

/-- Everything a register write can answer (R24). -/
theorem State.setReg_eq_ok {s t : State} {o v : Byte} :
    s.setReg o v = .ok t ↔ ∃ k : Fin 8, o.toNat = k.val ∧ t = s.withSlot k v := by
  simp only [State.setReg, bind_eq_ok, regIndex_eq_ok, Except.ok.injEq]
  exact exists_congr fun _ => and_congr_right fun _ => eq_comm

theorem State.setReg_eq_error {s : State} {o v : Byte} {c : Cause} :
    s.setReg o v = .error c ↔ 8 ≤ o.toNat ∧ c = .outOfBoundsRegister o := by
  simp [State.setReg, bind_eq_error, regIndex_eq_error]

/-- A read of R7 by its operand byte. -/
@[simp] theorem State.getReg_seven (s : State) : s.getReg 7#8 = slotValue 7 (s.slot 7) := s.getReg_slot 7

/-- A write of R7 by its operand byte. -/
@[simp] theorem State.setReg_seven (s : State) (v : Byte) : s.setReg 7#8 v = .ok (s.withSlot 7 v) := s.setReg_slot 7 v

/-- SP's read, as a slot (R12). -/
theorem State.getSp_eq (s : State) : s.getSp = slotValue 7 (s.slot 7) := s.getReg_slot 7

/-- SP's write, as a slot (R12). -/
@[simp] theorem State.setSp_eq (s : State) (v : Byte) : s.setSp v = .ok (s.withSlot 7 v) := s.setReg_slot 7 v

/-! ## The stack pointer's bounds -/

/-- Everything the bounds check can answer (R143). -/
theorem checkSp_eq_ok {v : Int} {b : Byte} : checkSp v = .ok b ↔ v = b.toNat := by
  unfold checkSp
  split
  · have := b.isLt; simp; omega
  · rename_i h
    constructor
    · rintro ⟨rfl⟩
      have : v.toNat < 256 := by omega
      simp [BitVec.toNat_ofNat, Nat.mod_eq_of_lt this]; omega
    · intro hv; subst hv; simp

theorem checkSp_eq_error {v : Int} {c : Cause} :
    checkSp v = .error c ↔ (v < 0 ∨ 255 < v) ∧ c = .stackExhausted v := by
  unfold checkSp; split <;> simp_all [eq_comm]

/-- A push at SP = 0 (R143). -/
@[simp] theorem checkSp_below : checkSp (-1) = .error (.stackExhausted (-1)) := by decide

/-- A pop at SP = 255 (R143). -/
@[simp] theorem checkSp_above : checkSp 256 = .error (.stackExhausted 256) := by decide

/-- A push moves SP down by one. -/
theorem checkSp_pred {sp : Byte} (h : sp ≠ 0) : checkSp (sp.toNat - 1) = .ok (sp - 1) := by
  rw [checkSp_eq_ok]
  have : sp.toNat ≠ 0 := fun h0 => h (by bv_omega)
  have : (sp - 1).toNat = sp.toNat - 1 := by bv_omega
  omega

/-- A pop moves SP up by one. -/
theorem checkSp_succ {sp : Byte} (h : sp ≠ 255) : checkSp (sp.toNat + 1) = .ok (sp + 1) := by
  rw [checkSp_eq_ok]
  have : (sp + 1).toNat = sp.toNat + 1 := by bv_omega
  omega

/-! ## The commit -/

@[simp] theorem commit_ok (op : Op) (s t : State) : commit op s (.ok t) =
    .next (t.withPc (nextPc s.pc (decodeOpcode op.byte).n (decodeOpcode op.byte).s t.pc)) := rfl

@[simp] theorem commit_error (op : Op) (s : State) (c : Cause) :
    commit op s (.error c) = .next (s.takeFault c) := rfl

/-- A commit always answers a next state: what the handler computed with the pc moved on, or the fault
entry and nothing else (R13, R184, R185). -/
theorem commit_cases {op : Op} {s u : State} {r : Except Cause State} (h : commit op s r = .next u) :
    (∃ t, r = .ok t ∧
      u = t.withPc (nextPc s.pc (decodeOpcode op.byte).n (decodeOpcode op.byte).s t.pc)) ∨
    (∃ c, r = .error c ∧ u = s.takeFault c) := by
  cases r with
  | ok t => exact .inl ⟨t, rfl, by simpa using h.symm⟩
  | error c => exact .inr ⟨c, rfl, by simpa using h.symm⟩

theorem nextPc_advance (p n q : Nat) : nextPc p n false q = p + 1 + n := rfl
theorem nextPc_handler (p n q : Nat) : nextPc p n true q = q := rfl

end Sys2Proof.Machine
end

