-- ==== Sys2Proof/Laws/PerInstr.lean ====
section
/-! SUPPORT. Laws/PerInstr.lean: the opcode map read both ways, and a statement about every instruction
as syntax, made one constructor at a time.

`Encoded`: the encoder and the decoder take an instruction apart and put it together the same way:
its opcode byte is bound to its operation, it has as many operand bytes as that byte's operand count
says, and its operation rebuilds it from them. -/

namespace Sys2Proof

/-- The opcode map and the decoder agree (R65, R84). -/
theorem boundOp_byte (ins : Op) : boundOp ins.byte = some ins := by
  cases ins <;> decide

/-- A byte bound to an operation is that operation's byte: the map is one to one (R69). -/
theorem byte_of_boundOp {op : Byte} {ins : Op} (h : boundOp op = some ins) : op = ins.byte := by
  unfold boundOp at h
  repeat' split at h
  all_goals first | (cases h; assumption) | cases h

/-- The operand count of each opcode (R65). -/
theorem operandCount_byte (op : Op) : operandCount op.byte =
    match op with
    | .hlt | .ret => 0
    | .prn | .push | .pop | .call => 1
    | .ldi | .add | .mul => 2 := by
  cases op <;> decide

/-- The suppress flag of each opcode (R65). -/
@[simp] theorem suppressFlag_byte (op : Op) : suppressFlag op.byte = (op == .call || op == .ret) := by
  cases op <;> decide

@[simp] theorem decodeOpcode_n (op : Byte) : (decodeOpcode op).n = operandCount op := by
  simp only [decodeOpcode]
@[simp] theorem decodeOpcode_s (op : Byte) : (decodeOpcode op).s = suppressFlag op := by
  simp only [decodeOpcode]
@[simp] theorem decodeOpcode_ins (op : Byte) : (decodeOpcode op).ins = boundOp op := by
  simp only [decodeOpcode]
@[simp] theorem decodeOpcode_aluOp (op : Byte) : (decodeOpcode op).aluOp = (boundOp op).bind Op.aluOp := by
  simp only [decodeOpcode]

/-- An illegal opcode is rejected by name, whatever follows it (R66, R91). -/
theorem decode_illegal {op : Byte} (rest : List Byte) (h : boundOp op = none) :
    decode (op :: rest) = .error (.illegalOpcode op) := by
  simp [decode, h]

/-- A legal opcode and what follows it (R68). -/
theorem decode_legal {op : Byte} {ins : Op} (rest : List Byte) (h : boundOp op = some ins) :
    decode (op :: rest) =
      if rest.length < operandCount op then .error (.missingOperand op)
      else .ok (ins.instr (rest.take (operandCount op)), rest.drop (operandCount op)) := by
  simp [decode, h]

namespace Laws.Encoded

def Statement (i : Instr) : Prop :=
  boundOp i.op.byte = some i.op ∧ i.operandBytes.length = operandCount i.op.byte ∧
    i.op.instr i.operandBytes = i

theorem hlt : Statement .hlt := ⟨boundOp_byte _, (operandCount_byte .hlt).symm, rfl⟩
theorem ldi (r v : Byte) : Statement (.ldi r v) := ⟨boundOp_byte _, (operandCount_byte .ldi).symm, rfl⟩
theorem prn (r : Byte) : Statement (.prn r) := ⟨boundOp_byte _, (operandCount_byte .prn).symm, rfl⟩
theorem add (ra rb : Byte) : Statement (.add ra rb) := ⟨boundOp_byte _, (operandCount_byte .add).symm, rfl⟩
theorem mul (ra rb : Byte) : Statement (.mul ra rb) := ⟨boundOp_byte _, (operandCount_byte .mul).symm, rfl⟩
theorem push (r : Byte) : Statement (.push r) := ⟨boundOp_byte _, (operandCount_byte .push).symm, rfl⟩
theorem pop (r : Byte) : Statement (.pop r) := ⟨boundOp_byte _, (operandCount_byte .pop).symm, rfl⟩
theorem call (r : Byte) : Statement (.call r) := ⟨boundOp_byte _, (operandCount_byte .call).symm, rfl⟩
theorem ret : Statement .ret := ⟨boundOp_byte _, (operandCount_byte .ret).symm, rfl⟩

end Laws.Encoded
end Sys2Proof
end

