-- ==== Sys2Proof/Laws/Decode.lean ====
section
/-! SUPPORT. Laws/Decode.lean: what fetching an instruction can
answer (R81, R82, R88), tied to the decoder on the bytes at the pc. -/

namespace Sys2Proof

namespace Machine

/-! ## The fetch unit -/

theorem State.fetchBytes_inside (s : State) (a n : Nat) (h : a + n ≤ 256) :
    s.fetchBytes a n = .ok ((List.range n).map (fun k => s.mem.read (a + k))) := by
  induction n generalizing a with
  | zero => rfl
  | succ n ih =>
    rw [State.fetchBytes, s.memRead_inside (by omega), ok_bind, ih (a + 1) (by omega), ok_bind]
    simp [List.range_succ_eq_map, Function.comp_def]
    intro k _; congr 1; omega

/-- The first byte that lies past the last cell is the one that faults (R82). -/
theorem State.fetchBytes_outside (s : State) (a n : Nat) (ha : a ≤ 256) (h : 256 < a + n) :
    s.fetchBytes a n = .error (.outOfBoundsAddress 256) := by
  induction n generalizing a with
  | zero => omega
  | succ n ih =>
    rw [State.fetchBytes]
    by_cases ha' : a = 256
    · subst a; rw [s.memRead_outside (by omega), error_bind]
    · rw [s.memRead_inside (by omega), ok_bind, ih (a + 1) (by omega) (by omega), error_bind]

/-- The bytes of memory from an address on, where memory reaches that far. -/
theorem Memory.window_inside (m : Memory) (a n : Nat) (h : a + n ≤ 256) :
    m.window a n = (List.range n).map (fun k => m.read (a + k)) := by
  induction n generalizing a with
  | zero => rfl
  | succ n ih =>
    rw [Memory.window, if_pos (by simp; omega), ih (a + 1) (by omega)]
    simp [List.range_succ_eq_map, Function.comp_def]
    intro k _; congr 1; omega

/-- A longer window begins with a shorter one. -/
theorem Memory.window_take (m : Memory) (a n k : Nat) : (m.window a (n + k)).take n = m.window a n := by
  induction n generalizing a with
  | zero => simp [Memory.window]
  | succ n ih =>
    rw [show n + 1 + k = (n + k) + 1 by omega, Memory.window, Memory.window]
    split <;> simp [ih]

theorem Memory.window_length (m : Memory) (a n : Nat) :
    (m.window a n).length = min n (256 - a) := by
  induction n generalizing a with
  | zero => simp [Memory.window]
  | succ n ih =>
    rw [Memory.window]
    simp only [Config.memSize]
    split
    · simp [ih]; omega
    · simp; omega

/-- Fetching `n` bytes gives the window, where memory holds all of it. -/
theorem State.fetchBytes_window (s : State) (a n : Nat) (h : n ≤ (s.mem.window a n).length) :
    s.fetchBytes a n = .ok (s.mem.window a n) := by
  rw [Memory.window_length] at h
  rcases Nat.eq_zero_or_pos n with rfl | hn
  · rfl
  · rw [s.fetchBytes_inside a n (by omega), s.mem.window_inside a n (by omega)]

/-! ## The instruction at the pc -/

/-- Past the last cell, no opcode can be fetched (R81). -/
theorem State.fetchInstr_outside (s : State) (h : 256 ≤ s.pc) :
    s.fetchInstr = .error (.outOfBoundsAddress s.pc) := by
  simp [State.fetchInstr, State.fetchOpcode, s.memRead_outside h]

/-- An illegal opcode (R66, R91). -/
theorem State.fetchInstr_illegal (s : State) (h : s.pc < 256) (hop : boundOp (s.mem.read s.pc) = none) :
    s.fetchInstr = .error (.illegalInstruction (s.mem.read s.pc)) := by
  simp [State.fetchInstr, State.fetchOpcode, s.memRead_inside h, hop]

/-- A legal opcode: the operands are fetched, and the operation makes the instruction (R88). -/
theorem State.fetchInstr_legal (s : State) {ins : Op} (h : s.pc < 256)
    (hop : boundOp (s.mem.read s.pc) = some ins) :
    s.fetchInstr = (s.fetchOperands s.pc (operandCount (s.mem.read s.pc)) >>= fun o => .ok (ins.instr o)) := by
  simp [State.fetchInstr, State.fetchOpcode, s.memRead_inside h, hop]

/-- Everything fetching an instruction can raise: the three checks that come before any handler, in
their order (R183). -/
theorem State.fetchInstr_cases (s : State) :
    (256 ≤ s.pc ∧ s.fetchInstr = .error (.outOfBoundsAddress s.pc)) ∨
    (s.pc < 256 ∧ boundOp (s.mem.read s.pc) = none ∧
      s.fetchInstr = .error (.illegalInstruction (s.mem.read s.pc))) ∨
    (∃ ins, s.pc < 256 ∧ boundOp (s.mem.read s.pc) = some ins ∧
      256 ≤ s.pc + operandCount (s.mem.read s.pc) ∧
      s.fetchInstr = .error (.outOfBoundsAddress 256)) ∨
    (∃ ins, s.pc + operandCount (s.mem.read s.pc) < 256 ∧ boundOp (s.mem.read s.pc) = some ins ∧
      s.fetchInstr = .ok (ins.instr ((List.range (operandCount (s.mem.read s.pc))).map
        (fun k => s.mem.read (s.pc + 1 + k))))) := by
  rcases Nat.lt_or_ge s.pc 256 with h | h
  · cases hop : boundOp (s.mem.read s.pc) with
    | none => exact .inr (.inl ⟨h, rfl, s.fetchInstr_illegal h hop⟩)
    | some ins =>
      rw [s.fetchInstr_legal h hop, State.fetchOperands]
      rcases Nat.lt_or_ge (s.pc + operandCount (s.mem.read s.pc)) 256 with hn | hn
      · rw [s.fetchBytes_inside _ _ (by omega)]
        exact .inr (.inr (.inr ⟨ins, hn, rfl, rfl⟩))
      · rw [s.fetchBytes_outside _ _ (by omega) (by omega)]
        exact .inr (.inr (.inl ⟨ins, h, rfl, hn, rfl⟩))
  · exact .inl ⟨h, s.fetchInstr_outside h⟩

end Machine
end Sys2Proof
end

