-- ==== Sys2Proof/Laws/Exec.lean ====
section
/-! SUPPORT. Laws/Exec.lean: for each handler, everything it can do when it answers a next state: the
one effect the spec gives it, or the fault entry. Invariants and frames follow from these. -/

namespace Sys2Proof.Machine

variable {s u : State} {r ra rb v : Byte}

theorem execHlt_eq (s : State) : execHlt s =
    .next { s with status := .halted, out := s.out ++ [.shutdown], pc := s.pc + 1 } := rfl

theorem execLdi_cases (h : execLdi r v s = .next u) :
    (∃ k : Fin 8, r.toNat = k.val ∧ u = (s.withSlot k v).withPc (s.pc + 3)) ∨ ∃ c, u = s.takeFault c := by
  rcases commit_cases h with ⟨t, ht, rfl⟩ | ⟨c, -, rfl⟩
  · obtain ⟨k, hk, rfl⟩ := State.setReg_eq_ok.mp ht
    exact .inl ⟨k, hk, rfl⟩
  · exact .inr ⟨c, rfl⟩

theorem execPrn_cases (h : execPrn r s = .next u) :
    (∃ (k : Fin 8) (x : Byte), r.toNat = k.val ∧ s.slot k = some x ∧
      u = (s.emit (.num x)).withPc (s.pc + 2)) ∨ ∃ c, u = s.takeFault c := by
  rcases commit_cases h with ⟨t, ht, rfl⟩ | ⟨c, -, rfl⟩
  · obtain ⟨x, hx, ht⟩ := bind_eq_ok.mp ht
    obtain ⟨k, hk, hx⟩ := State.getReg_eq_ok.mp hx
    cases ht
    exact .inl ⟨k, x, hk, hx, rfl⟩
  · exact .inr ⟨c, rfl⟩

theorem aluCompute_add (a b : Byte) : aluCompute .add a b = .ok (a + b) := by
  simp only [aluCompute]; congr 1; apply BitVec.eq_of_toNat_eq; simp [BitVec.toNat_add]

theorem aluCompute_mul (a b : Byte) : aluCompute .mul a b = .ok (a * b) := by
  simp only [aluCompute, Config.hasMul, if_true]; congr 1; apply BitVec.eq_of_toNat_eq
  simp [BitVec.toNat_mul]

theorem aluApply_eq_ok {aop : AluOp} {t : State} (h : s.aluApply aop ra rb = .ok t) :
    ∃ (k j : Fin 8) (x y z : Byte), ra.toNat = k.val ∧ rb.toNat = j.val ∧ s.slot k = some x ∧
      s.slot j = some y ∧ aluCompute aop x y = .ok z ∧ t = s.withSlot k z := by
  obtain ⟨x, hx, h⟩ := bind_eq_ok.mp h
  obtain ⟨y, hy, h⟩ := bind_eq_ok.mp h
  obtain ⟨z, hz, h⟩ := bind_eq_ok.mp h
  obtain ⟨k, hk, hx⟩ := State.getReg_eq_ok.mp hx
  obtain ⟨j, hj, hy⟩ := State.getReg_eq_ok.mp hy
  obtain ⟨k', hk', rfl⟩ := State.setReg_eq_ok.mp h
  obtain rfl : k' = k := Fin.ext (hk'.symm.trans hk)
  exact ⟨k', j, x, y, z, hk, hj, hx, hy, hz, rfl⟩

/-- The decoder routes ADD to the ALU's addition (R83). -/
@[simp] theorem aluDispatch_add (s : State) (ra rb : Byte) : s.aluDispatch .add ra rb = s.aluApply .add ra rb := rfl

/-- The decoder routes MUL to the ALU's multiplication (R83). -/
@[simp] theorem aluDispatch_mul (s : State) (ra rb : Byte) : s.aluDispatch .mul ra rb = s.aluApply .mul ra rb := rfl

theorem execAdd_cases (h : execAdd ra rb s = .next u) :
    (∃ (k j : Fin 8) (x y : Byte), ra.toNat = k.val ∧ rb.toNat = j.val ∧ s.slot k = some x ∧
      s.slot j = some y ∧ u = (s.withSlot k (x + y)).withPc (s.pc + 3)) ∨ ∃ c, u = s.takeFault c := by
  rcases commit_cases h with ⟨t, ht, rfl⟩ | ⟨c, -, rfl⟩
  · rw [aluDispatch_add] at ht
    obtain ⟨k, j, x, y, z, hk, hj, hx, hy, hz, rfl⟩ := aluApply_eq_ok ht
    rw [aluCompute_add] at hz
    cases hz
    exact .inl ⟨k, j, x, y, hk, hj, hx, hy, rfl⟩
  · exact .inr ⟨c, rfl⟩

theorem execMul_cases (h : execMul ra rb s = .next u) :
    (∃ (k j : Fin 8) (x y : Byte), ra.toNat = k.val ∧ rb.toNat = j.val ∧ s.slot k = some x ∧
      s.slot j = some y ∧ u = (s.withSlot k (x * y)).withPc (s.pc + 3)) ∨ ∃ c, u = s.takeFault c := by
  rcases commit_cases h with ⟨t, ht, rfl⟩ | ⟨c, -, rfl⟩
  · rw [aluDispatch_mul] at ht
    obtain ⟨k, j, x, y, z, hk, hj, hx, hy, hz, rfl⟩ := aluApply_eq_ok ht
    rw [aluCompute_mul] at hz
    cases hz
    exact .inl ⟨k, j, x, y, hk, hj, hx, hy, rfl⟩
  · exact .inr ⟨c, rfl⟩

/-- SP's read answers the byte R7 holds. -/
theorem State.getSp_eq_ok {sp : Byte} : s.getSp = .ok sp ↔ s.slot 7 = some sp := by
  rw [State.getSp_eq, slotValue_eq_ok]

theorem execPush_cases (h : execPush r s = .next u) :
    (∃ (k : Fin 8) (sp sp1 x : Byte), s.slot 7 = some sp ∧ sp.toNat = sp1.toNat + 1 ∧ r.toNat = k.val ∧
      (s.withSlot 7 sp1).slot k = some x ∧
      u = ((s.withSlot 7 sp1).withMem (s.mem.write sp1.toNat x)).withPc (s.pc + 2)) ∨
    ∃ c, u = s.takeFault c := by
  rcases commit_cases h with ⟨t, ht, rfl⟩ | ⟨c, -, rfl⟩
  · obtain ⟨sp, hsp, ht⟩ := bind_eq_ok.mp ht
    obtain ⟨sp1, hsp1, ht⟩ := bind_eq_ok.mp ht
    rw [State.setSp_eq, ok_bind] at ht
    obtain ⟨x, hx, ht⟩ := bind_eq_ok.mp ht
    rw [State.memWrite_byte] at ht
    obtain ⟨k, hk, hx⟩ := State.getReg_eq_ok.mp hx
    cases ht
    have := checkSp_eq_ok.mp hsp1
    exact .inl ⟨k, sp, sp1, x, State.getSp_eq_ok.mp hsp, by omega, hk, hx, rfl⟩
  · exact .inr ⟨c, rfl⟩

theorem execPop_cases (h : execPop r s = .next u) :
    (∃ (k : Fin 8) (sp sp1 sp2 : Byte), s.slot 7 = some sp ∧ r.toNat = k.val ∧
      (s.withSlot k (s.mem.read sp.toNat)).slot 7 = some sp1 ∧ sp2.toNat = sp1.toNat + 1 ∧
      u = ((s.withSlot k (s.mem.read sp.toNat)).withSlot 7 sp2).withPc (s.pc + 2)) ∨
    ∃ c, u = s.takeFault c := by
  rcases commit_cases h with ⟨t, ht, rfl⟩ | ⟨c, -, rfl⟩
  · obtain ⟨sp, hsp, ht⟩ := bind_eq_ok.mp ht
    rw [State.memRead_byte, ok_bind] at ht
    obtain ⟨s1, hs1, ht⟩ := bind_eq_ok.mp ht
    obtain ⟨sp1, hsp1, ht⟩ := bind_eq_ok.mp ht
    obtain ⟨sp2, hsp2, ht⟩ := bind_eq_ok.mp ht
    obtain ⟨k, hk, rfl⟩ := State.setReg_eq_ok.mp hs1
    rw [State.setSp_eq] at ht
    cases ht
    have := checkSp_eq_ok.mp hsp2
    exact .inl ⟨k, sp, sp1, sp2, State.getSp_eq_ok.mp hsp, hk, State.getSp_eq_ok.mp hsp1, by omega, rfl⟩
  · exact .inr ⟨c, rfl⟩

/-- Everything forming a return address can answer (R161). -/
theorem returnAddress_eq_ok {p : Nat} {b : Byte} :
    returnAddress p = .ok b ↔ p + 2 < 256 ∧ b = BitVec.ofNat 8 (p + 2) := by
  unfold returnAddress
  split
  · simp; omega
  · simp only [Except.ok.injEq]
    constructor
    · rintro rfl; exact ⟨by omega, rfl⟩
    · rintro ⟨-, rfl⟩; rfl

theorem execCall_cases (h : execCall r s = .next u) :
    (∃ (k : Fin 8) (sp sp1 x : Byte), s.slot 7 = some sp ∧ sp.toNat = sp1.toNat + 1 ∧ s.pc + 2 < 256 ∧
      r.toNat = k.val ∧ (s.withSlot 7 sp1).slot k = some x ∧
      u = ((s.withSlot 7 sp1).withMem (s.mem.write sp1.toNat (BitVec.ofNat 8 (s.pc + 2)))).withPc x.toNat) ∨
    ∃ c, u = s.takeFault c := by
  rcases commit_cases h with ⟨t, ht, rfl⟩ | ⟨c, -, rfl⟩
  · obtain ⟨sp, hsp, ht⟩ := bind_eq_ok.mp ht
    obtain ⟨sp1, hsp1, ht⟩ := bind_eq_ok.mp ht
    rw [State.setSp_eq, ok_bind] at ht
    obtain ⟨ret, hret, ht⟩ := bind_eq_ok.mp ht
    rw [State.memWrite_byte, ok_bind] at ht
    obtain ⟨x, hx, ht⟩ := bind_eq_ok.mp ht
    obtain ⟨hp, rfl⟩ := returnAddress_eq_ok.mp hret
    obtain ⟨k, hk, hx⟩ := State.getReg_eq_ok.mp hx
    cases ht
    have := checkSp_eq_ok.mp hsp1
    exact .inl ⟨k, sp, sp1, x, State.getSp_eq_ok.mp hsp, by omega, hp, hk, hx, rfl⟩
  · exact .inr ⟨c, rfl⟩

theorem execRet_cases (h : execRet s = .next u) :
    (∃ sp sp2 : Byte, s.slot 7 = some sp ∧ sp2.toNat = sp.toNat + 1 ∧
      u = (s.withSlot 7 sp2).withPc (s.mem.read sp.toNat).toNat) ∨
    ∃ c, u = s.takeFault c := by
  rcases commit_cases h with ⟨t, ht, rfl⟩ | ⟨c, -, rfl⟩
  · obtain ⟨sp, hsp, ht⟩ := bind_eq_ok.mp ht
    rw [State.memRead_byte, ok_bind] at ht
    obtain ⟨sp2, hsp2, ht⟩ := bind_eq_ok.mp ht
    rw [State.setSp_eq] at ht
    cases ht
    have := checkSp_eq_ok.mp hsp2
    exact .inl ⟨sp, sp2, State.getSp_eq_ok.mp hsp, by omega, rfl⟩
  · exact .inr ⟨c, rfl⟩

/-! ## Every instruction, and the step -/

theorem commit_next (op : Op) (s : State) (x : Except Cause State) : ∃ t, commit op s x = .next t := by
  cases x <;> exact ⟨_, rfl⟩

/-- Every instruction answers a next state in every state. -/
theorem exec_next (i : Instr) (s : State) : ∃ t, exec i s = .next t := by
  cases i <;> simp only [exec, execHlt, execLdi, execPrn, execAdd, execMul, execPush, execPop,
    execCall, execRet, commit_next]

theorem step_running {s : State} (h : s.status = .running) : step s = s.runningStep := by
  simp [step, h]

theorem runningStep_ok {s : State} {i : Instr} (h : s.fetchInstr = .ok i) : s.runningStep = exec i s := by
  simp [State.runningStep, h]

theorem runningStep_error {s : State} {c : Cause} (h : s.fetchInstr = .error c) :
    s.runningStep = .next (s.takeFault c) := by
  simp [State.runningStep, h]

/-- Everything a step that answers a next state has done: it ran the fetched instruction, or took the
fault of fetching one (R88). -/
theorem step_cases {s t : State} (h : step s = .next t) :
    s.status = .running ∧
      ((∃ i, s.fetchInstr = .ok i ∧ exec i s = .next t) ∨
       (∃ c, s.fetchInstr = .error c ∧ t = s.takeFault c)) := by
  unfold step at h
  split at h
  · rename_i hr
    refine ⟨hr, ?_⟩
    cases hf : s.fetchInstr with
    | ok i => rw [runningStep_ok hf] at h; exact .inl ⟨i, rfl, h⟩
    | error c => rw [runningStep_error hf] at h; cases h; exact .inr ⟨c, rfl, rfl⟩
  all_goals cases h

end Sys2Proof.Machine
end

