-- ==== Sys2Proof/Laws/Loader.lean ====
section
/-! SUPPORT. Laws/Loader.lean: for each part of the loader, one lemma that says what it can answer
(R216, R217). -/

namespace Sys2Proof.Machine

/-! ## Comments and white space -/

theorem stripComment_comment (line comment : List Char) :
    stripComment (line ++ '#' :: comment) = stripComment line := by
  induction line with
  | nil => simp [stripComment]
  | cons c cs ih =>
    simp only [stripComment, List.cons_append, List.takeWhile_cons] at *
    rw [ih]

theorem stripComment_self {line : List Char} (h : '#' ∉ line) : stripComment line = line := by
  rw [stripComment, List.takeWhile_eq_self_iff]
  exact fun c hc => by simpa using fun e : c = '#' => h (e ▸ hc)

/-- White space is no comment. -/
theorem hash_not_mem {pad : List Char} (h : ∀ c ∈ pad, c.isWhitespace = true) : '#' ∉ pad :=
  fun hm => absurd (h _ hm) (by decide)

theorem stripSpaces_blank {line : List Char} (h : ∀ c ∈ line, c.isWhitespace = true) : stripSpaces line = [] := by
  have : line.dropWhile Char.isWhitespace = [] := List.dropWhile_eq_nil_iff.mpr h
  simp [stripSpaces, this]

/-- White space around a line does not count. -/
theorem stripSpaces_pad {before after : List Char} (line : List Char)
    (hb : ∀ c ∈ before, c.isWhitespace = true) (ha : ∀ c ∈ after, c.isWhitespace = true) :
    stripSpaces (before ++ line ++ after) = stripSpaces line := by
  rw [List.append_assoc, stripSpaces, List.dropWhile_append_of_pos hb, List.dropWhile_append]
  split
  · rename_i h
    have h : line.dropWhile Char.isWhitespace = [] := by simpa using h
    have h' : after.dropWhile Char.isWhitespace = [] := List.dropWhile_eq_nil_iff.mpr ha
    rw [stripSpaces, h, h']
  · rw [List.reverse_append, List.dropWhile_append_of_pos (by simpa using ha), stripSpaces]

/-- Nothing is stripped from a line that neither begins nor ends in white space. -/
theorem stripSpaces_self {c last : Char} {cs : List Char} (hc : c.isWhitespace = false)
    (hlast : (c :: cs).getLast? = some last) (hl : last.isWhitespace = false) :
    stripSpaces (c :: cs) = c :: cs := by
  have h0 : (c :: cs).dropWhile Char.isWhitespace = c :: cs := by simp [hc]
  obtain ⟨ds, hds⟩ := List.getLast?_eq_some_iff.mp hlast
  rw [stripSpaces, h0, hds]
  simp [hl]

/-! ## One line -/

theorem binaryValue_digits {ds : List Char} (h : ∀ d ∈ ds, d = '0' ∨ d = '1') (acc : Nat) :
    binaryValue acc ds = some (ds.foldl (fun n d => 2 * n + (d.toNat - 48)) acc) := by
  induction ds generalizing acc with
  | nil => rfl
  | cons d ds ih =>
    rw [List.forall_mem_cons] at h
    obtain ⟨rfl | rfl, h⟩ := h <;> simp [binaryValue, ih h]

theorem binaryValue_none {ds : List Char} (h : ∃ d ∈ ds, d ≠ '0' ∧ d ≠ '1') (acc : Nat) :
    binaryValue acc ds = none := by
  induction ds generalizing acc with
  | nil => simp at h
  | cons d ds ih =>
    rw [binaryValue]
    split
    · exact ih (by simp_all) _
    · split
      · exact ih (by simp_all) _
      · rfl

/-- A line's meaning depends only on what is left of it when comment and white space are stripped. -/
theorem parseLine_congr {l m : List Char} (h : stripSpaces (stripComment l) = stripSpaces (stripComment m)) :
    parseLine l = parseLine m := by
  rw [parseLine, parseLine, h]

/-! ## A whole text -/

/-- A malformed line fails the text it stands in (R217). -/
theorem collectBytes_malformed {ls : List (List Char)} (h : ∃ l ∈ ls, parseLine l = .malformed) :
    collectBytes ls = none := by
  induction ls with
  | nil => simp at h
  | cons l ls ih =>
    rw [collectBytes]
    split
    · rw [ih (by simp_all)]; rfl
    · exact ih (by simp_all)
    · rfl

/-- The bytes of a text whose lines are all bytes or ignored (R216). -/
theorem collectBytes_bytes {ls : List (List Char)} {bytes : List Byte}
    (h : (ls.map parseLine).filter (· ≠ .ignored) = bytes.map .byte) : collectBytes ls = some bytes := by
  induction ls generalizing bytes with
  | nil => cases bytes <;> simp_all [collectBytes]
  | cons l ls ih =>
    rw [collectBytes]
    split
    · rename_i b hb
      cases bytes with
      | nil => simp [hb] at h
      | cons b' bytes =>
        simp only [List.map_cons, hb] at h
        rw [List.filter_cons_of_pos (by simp)] at h
        injection h with h1 h2
        cases h1
        rw [ih h2]; rfl
    · rename_i hi
      exact ih (by simpa [hi] using h)
    · rename_i hm
      cases bytes <;> simp [hm] at h

/-- Everything reading a program can answer (R217). -/
theorem readProgram_of_collect (text : List Char) :
    readProgram (some text) = match collectBytes (splitLines text) with
      | some bytes => if bytes.length ≤ Config.memSize then .ok bytes else .error .programLoadFailed
      | none => .error .programLoadFailed := rfl

end Sys2Proof.Machine
end

