-- ==== Sys2Proof/Tests/Slice0.lean ====
section
/-! SUPPORT. Tests/Slice0.lean: small tests of one decode or one step each, and a witness for the
hypotheses of each statement of Obligations.lean.

Expected results come from the spec: the encodings of R72, the vectors V1 to V7 and the examples of
95_test_vectors.md, and the examples of the instruction rules. -/

namespace Sys2Proof.Tests

open Sys2Proof.Machine

/-- The next state an outcome gives, if it gives one. -/
def next? : Host.Outcome State Fault Refusal → Option State
  | .next s => some s
  | _ => none

/-- A running machine at `p` with bytes placed from `p` on and everything else as at reset. -/
def runningAt (p : Nat) (bytes : List Byte) : State :=
  { State.reset with status := .running, pc := p, mem := State.reset.mem.place p bytes }

/-- The fault record a step leaves. -/
def faultAfter (s : State) : Option FaultRecord := (next? (step s)).bind (·.fault)

/-! ## Well-formedness: one ill-formed term for each register operand that is checked -/

theorem test_wellFormed_ldi : WellFormed (.ldi 7 255) := by decide
theorem test_illFormed_ldi : ¬ WellFormed (.ldi 8 0) := by decide
theorem test_illFormed_prn : ¬ WellFormed (.prn 200) := by decide
theorem test_illFormed_add_first : ¬ WellFormed (.add 8 0) := by decide
theorem test_illFormed_add_second : ¬ WellFormed (.add 0 8) := by decide
theorem test_illFormed_mul_first : ¬ WellFormed (.mul 255 0) := by decide
theorem test_illFormed_mul_second : ¬ WellFormed (.mul 0 255) := by decide
theorem test_illFormed_push : ¬ WellFormed (.push 9) := by decide
theorem test_illFormed_pop : ¬ WellFormed (.pop 9) := by decide
theorem test_illFormed_call : ¬ WellFormed (.call 8) := by decide

/-! ## Decoding: each instruction's word written out from R72, and V1 -/

theorem test_decode_hlt : decode [0b00000001#8] = .ok (.hlt, []) := rfl
theorem test_decode_ldi : decode [0b10000010#8, 0b00000011#8, 0b00101010#8] = .ok (.ldi 3 42, []) := rfl
theorem test_decode_prn : decode [0b01000111#8, 0b00000011#8] = .ok (.prn 3, []) := rfl
theorem test_decode_add : decode [0b10100000#8, 0b00000000#8, 0b00000001#8] = .ok (.add 0 1, []) := rfl
theorem test_decode_mul : decode [0b10100010#8, 0b00000000#8, 0b00000001#8] = .ok (.mul 0 1, []) := rfl
theorem test_decode_push : decode [0b01000101#8, 0b00000000#8] = .ok (.push 0, []) := rfl
theorem test_decode_pop : decode [0b01000110#8, 0b00000010#8] = .ok (.pop 2, []) := rfl
theorem test_decode_call : decode [0b01010000#8, 0b00000001#8] = .ok (.call 1, []) := rfl
theorem test_decode_ret : decode [0b00010001#8, 0xFF#8] = .ok (.ret, [0xFF#8]) := rfl

/-- V1, the rows that are ILLEGAL, with their `n` and `s`. -/
theorem test_decodeOpcode_illegal :
    decodeOpcode 0x00#8 = ⟨0, false, none, none⟩ ∧ decodeOpcode 0x54#8 = ⟨1, true, none, none⟩ ∧
    decodeOpcode 0xA7#8 = ⟨2, false, none, none⟩ ∧ decodeOpcode 0xC0#8 = ⟨3, false, none, none⟩ ∧
    decodeOpcode 0xFF#8 = ⟨3, true, none, none⟩ := by decide

/-- V1, the legal rows: `n` and `s`; `alu_op` as R83 has it. -/
theorem test_decodeOpcode_legal :
    decodeOpcode 0x01#8 = ⟨0, false, some .hlt, none⟩ ∧ decodeOpcode 0x82#8 = ⟨2, false, some .ldi, none⟩ ∧
    decodeOpcode 0x47#8 = ⟨1, false, some .prn, none⟩ ∧ decodeOpcode 0xA0#8 = ⟨2, false, some .add, some .add⟩ ∧
    decodeOpcode 0xA2#8 = ⟨2, false, some .mul, some .mul⟩ ∧ decodeOpcode 0x45#8 = ⟨1, false, some .push, none⟩ ∧
    decodeOpcode 0x46#8 = ⟨1, false, some .pop, none⟩ ∧ decodeOpcode 0x50#8 = ⟨1, true, some .call, none⟩ ∧
    decodeOpcode 0x11#8 = ⟨0, true, some .ret, none⟩ := by decide

theorem test_decode_truncated : decode [0x82#8, 3#8] = .error (.missingOperand 0x82#8) := rfl
theorem test_decode_illegal : decode [0x54#8, 1#8] = .error (.illegalOpcode 0x54#8) := rfl
theorem test_decodeTableWord : decodeTableWord 24 0x2A0382 = some (.ldi 3 42) := by decide
theorem test_decodeTableWord_short : decodeTableWord 8 0x82 = some (.ldi 0 0) := by decide

/-! ## One step of each instruction (V2 to V7) -/

/-- V3: HLT at 255 leaves pc at 256, with no fault. -/
theorem test_hlt_at_255 : (next? (step (runningAt 255 [0x01#8]))).map (fun t => (t.status, t.pc, t.out)) =
    some (.halted, 256, [.shutdown]) := by decide

theorem test_ldi : (next? (step (runningAt 0 [0x82#8, 3#8, 42#8]))).map (fun t => (t.slot 3, t.pc)) =
    some (some 42, 3) := by decide

theorem test_ldi_r8 : faultAfter (runningAt 0 [0x82#8, 8#8, 1#8]) = some ⟨.outOfBoundsRegister 8, 0⟩ := by
  decide

theorem test_prn_r7 : (next? (step (runningAt 0 [0x47#8, 7#8]))).map (fun t => (t.out, t.pc)) =
    some ([.num 244], 2) := by decide

theorem test_prn_unset : faultAfter (runningAt 0 [0x47#8, 4#8]) = some ⟨.uninitializedRegister 4, 0⟩ := by
  decide

theorem test_add_wraps :
    (next? (step (((runningAt 0 [0xA0#8, 0#8, 1#8]).withSlot 0 200).withSlot 1 100))).map
      (fun t => (t.slot 0, t.slot 1)) = some (some 44, some 100) := by decide

/-- V4: the destination is read first (D27). -/
theorem test_add_order : faultAfter (runningAt 0 [0xA0#8, 0#8, 10#8]) = some ⟨.uninitializedRegister 0, 0⟩ := by
  decide

theorem test_mul_low_byte :
    (next? (step (((runningAt 0 [0xA2#8, 0#8, 1#8]).withSlot 0 20).withSlot 1 30))).map
      (fun t => (t.slot 0, t.slot 1)) = some (some 88, some 30) := by decide

theorem test_mul_same_register :
    (next? (step ((runningAt 0 [0xA2#8, 1#8, 1#8]).withSlot 1 15))).bind (·.slot 1) = some 225 := by decide

theorem test_push_to_zero :
    (next? (step (((runningAt 9 [0x45#8, 0#8]).withSlot 0 5).withSlot 7 1))).map
      (fun t => (t.slot 7, t.mem.read 0)) = some (some 0, 5) := by decide

/-- V5: PUSH R7 stores the new SP (D23). -/
theorem test_push_r7 : (next? (step (runningAt 0 [0x45#8, 7#8]))).map (fun t => (t.slot 7, t.mem.read 0xF3)) =
    some (some 0xF3, 0xF3) := by decide

/-- V5: POP R7 leaves the popped byte plus one (D23). -/
theorem test_pop_r7 :
    (next? (step { runningAt 0 [0x46#8, 7#8] with
      mem := (State.reset.mem.place 0 [0x46#8, 7#8]).write 0xF4 0x20 })).bind (·.slot 7) = some 0x21 := by
  decide

/-- V5: the register check comes before the stack check. -/
theorem test_pop_order : faultAfter ((runningAt 3 [0x46#8, 9#8]).withSlot 7 255) =
    some ⟨.outOfBoundsRegister 9, 3⟩ := by decide

theorem test_call :
    (next? (step (((runningAt 8 [0x50#8, 1#8]).withSlot 1 15).withSlot 7 0xF3))).map
      (fun t => (t.slot 7, t.mem.read 0xF2, t.pc)) = some (some 0xF2, 10, 15) := by decide

/-- V6: the return address of a CALL at 254 does not fit (R161). -/
theorem test_call_at_254 : faultAfter ((runningAt 254 [0x50#8, 1#8]).withSlot 1 15) =
    some ⟨.outOfBoundsAddress 256, 254⟩ := by decide

/-- V6: RET with an empty stack jumps to `mem[0xF4]`, here 0 (D24). -/
theorem test_ret_empty_stack : (next? (step (runningAt 20 [0x11#8]))).map (fun t => (t.pc, t.slot 7)) =
    some (0, some 0xF5) := by decide

theorem test_ret_at_255 : faultAfter ((runningAt 20 [0x11#8]).withSlot 7 255) = some ⟨.stackExhausted 256, 20⟩ := by
  decide

/-- V2: legality is checked before operands. -/
theorem test_illegal_at_255 : faultAfter (runningAt 255 [0xC0#8]) = some ⟨.illegalInstruction 0xC0, 255⟩ := by
  decide

/-- V2: an operand past 255. -/
theorem test_operand_past_255 : faultAfter (runningAt 254 [0x82#8, 3#8]) = some ⟨.outOfBoundsAddress 256, 254⟩ := by
  decide

/-- V2: an opcode past 255. -/
theorem test_opcode_past_255 : faultAfter (runningAt 256 []) = some ⟨.outOfBoundsAddress 256, 256⟩ := by decide

/-- The host's placement of one instruction runs as the first step after reset. -/
theorem test_withFetchWord : (next? (step (State.reset.withFetchWord 24 0x2A0382))).bind (·.slot 3) = some 42 := by
  decide

/-! ## Memory, the host's commands and texts -/

/-- R180: the numbers of no fault, of IllegalInstruction and of StackExhausted. -/
theorem test_faultCode : State.reset.faultCode = 0 ∧
    (State.reset.takeFault (.illegalInstruction 0)).faultCode = 3 ∧
    (State.reset.takeFault (.stackExhausted 256)).faultCode = 5 := by decide

/-- Writing zero unlists a cell. -/
theorem test_write_zero_unlists : (((⟨[]⟩ : Memory).write 5 7).write 5 0).cells = [] := by decide

theorem test_idle_waits : step State.reset = .fault .waitsForRun := rfl

theorem test_load_once : (match Session.construct.load [1#8] with
    | .next h => h.load [1#8]
    | o => o) = .refused .loadedBefore := rfl

/-- S10: a commented line is its byte. -/
theorem test_parseLine_comment : parseLine ['1', '0', '0', '0', '0', '0', '1', '0', ' ', '#', ' ', 'L'] = .byte 0x82 := by
  decide

/-- R216: 9 characters, a wrong digit, and an empty line. -/
theorem test_parseLine_forms :
    parseLine ['1', '0', '0', '0', '0', '0', '1', '0', '1'] = .malformed ∧
    parseLine ['1', '0', '0', '0', '2', '0', '1', '0'] = .malformed ∧ parseLine [] = .ignored := by decide

/-- R217: a malformed line fails the load. -/
theorem test_readProgram_malformed : readProgram (some ['1', '0', '\n']) = .error .programLoadFailed := by decide

theorem test_renderNum : renderNum 42 = ['4', '2'] ∧ renderNum 0 = ['0'] ∧ renderNum 200 = ['2', '0', '0'] := by
  decide

/-! ## Witnesses: for each statement with hypotheses, a state and operands that meet all of them -/

theorem witness_EncodeOfDecode : decode [0x82#8, 8#8, 255#8, 0#8] = .ok (.ldi 8 255, [0#8]) := rfl

theorem witness_IllegalOpcodeFaults :
    operandCount 0xC0#8 = 3 ∧
    ∃ s : State, s.status = .running ∧ s.pc < 256 ∧ s.mem.read s.pc = 0xC0#8 ∧ boundOp 0xC0#8 = none :=
  ⟨by decide, runningAt 255 [0xC0#8], by decide⟩

theorem witness_StepRunsDecodedInstruction :
    ∃ s : State, s.status = .running ∧ decode (s.mem.window s.pc maxInstrBytes) = .ok (.ldi 3 7, []) :=
  ⟨runningAt 253 [0x82#8, 3#8, 7#8], rfl, rfl⟩

theorem witness_OpcodeFetchBounds :
    (255 < 256 ∧ 256 ≤ 256) ∧ ∃ s : State, s.status = .running ∧ 256 ≤ s.pc :=
  ⟨by decide, runningAt 256 [], by decide⟩

theorem witness_OperandFetchBounds :
    (253 + 2 < 256) ∧
    (1 ≤ 1 ∧ 1 ≤ 2 ∧ 256 ≤ 255 + 1 ∧ ∀ j, 1 ≤ j → j < 1 → 255 + j < 256) ∧
    (1 ≤ 2 ∧ 2 ≤ 2 ∧ 256 ≤ 254 + 2 ∧ ∀ j, 1 ≤ j → j < 2 → 254 + j < 256) ∧
    (∃ s : State, s.status = .running ∧ s.pc < 256 ∧ boundOp (s.mem.read s.pc) = some .ldi ∧
      256 ≤ s.pc + operandCount (s.mem.read s.pc)) :=
  ⟨by decide, ⟨by decide, by decide, by decide, fun j _ _ => by omega⟩,
    ⟨by decide, by decide, by decide, fun j _ _ => by omega⟩, runningAt 254 [0x82#8, 3#8], by decide⟩

/-- One step from a running state: a next state that runs on, one that halts, one that faults. -/
theorem witness_step :
    (∃ s t : State, step s = .next t ∧ t.status = .running) ∧
    (∃ s t : State, step s = .next t ∧ t.status = .halted) ∧
    (∃ s t : State, step s = .next t ∧ t.status = .faulted) :=
  ⟨⟨runningAt 0 [0x82#8, 3#8, 42#8], _, rfl, by decide⟩, ⟨runningAt 0 [0x01#8], _, rfl, by decide⟩,
    ⟨runningAt 0 [], _, rfl, by decide⟩⟩

theorem witness_StatusTransitions :
    State.reset.status = .idle ∧ (∃ s t : State, step s = .next t ∧ t.status = .halted) ∧
    (∃ s : State, s.status = .halted) ∧ (∃ s : State, s.status = .faulted) ∧
    (runningAt 0 []).status ≠ .idle :=
  ⟨rfl, witness_step.2.1, ⟨{ State.reset with status := .halted }, rfl⟩,
    ⟨State.reset.takeFault (.illegalInstruction 0), rfl⟩, by decide⟩

theorem witness_FaultsArePrecise : ∃ s t : State, step s = .next t ∧ t.status = .faulted := witness_step.2.2

theorem witness_FaultedIsFinal : ∃ s : State, s.status = .faulted :=
  ⟨State.reset.takeFault (.illegalInstruction 0), rfl⟩

theorem witness_StepIgnoresOutput : ∃ s t : State, step s = .next t ∧ t.status = .running := witness_step.1

/-- The four clauses of the pc rule: a fault, an advance, a CALL and a RET. -/
theorem witness_NextPcRule :
    State.reset.status ≠ .faulted ∧
    (∃ t, exec (.ldi 8 0) State.reset = .next t ∧ t.status = .faulted) ∧
    (∃ t, exec (.ldi 3 42) State.reset = .next t ∧ t.status ≠ .faulted ∧
      (decodeOpcode (Instr.ldi 3 42).op.byte).s = false) ∧
    (∃ t, exec (.call 7) State.reset = .next t ∧ t.status ≠ .faulted) ∧
    ∃ t, exec .ret State.reset = .next t ∧ t.status ≠ .faulted :=
  ⟨by decide, ⟨_, rfl, by decide⟩, ⟨_, rfl, by decide, by decide⟩, ⟨_, rfl, by decide⟩, _, rfl, by decide⟩

/-- A running state that meets the invariant, and steps. -/
theorem witness_StepKeepsInv : (runningAt 0 [0x82#8, 3#8, 42#8]).Inv ∧
    ∃ t, step (runningAt 0 [0x82#8, 3#8, 42#8]) = .next t :=
  ⟨⟨by decide, by decide, by decide, by decide, by simp [runningAt, State.reset], by decide⟩, _, rfl⟩

theorem witness_HostCommandsKeepInv : State.reset.Inv ∧
    (∃ h, Session.construct.load [0x01#8] = .next h) ∧ ∃ t, State.reset.runCommand = .next t :=
  ⟨⟨by decide, by decide, by decide, by decide, by simp [State.reset], by decide⟩, ⟨_, rfl⟩, ⟨_, rfl⟩⟩

theorem witness_WrittenSlotsStayWritten : ∃ s t : State, Reaches s t ∧ s.slot 7 ≠ none :=
  ⟨runningAt 0 [0x82#8, 3#8, 42#8], _, .tail .refl rfl, by decide⟩

theorem witness_ResetValues : (List.replicate 256 0xFF#8).length ≤ 256 ∧ (3 : Fin 8) ≠ 7 :=
  ⟨Nat.le_of_eq List.length_replicate, by decide⟩

theorem witness_LoadPlacesProgram :
    (∃ h : Session, h.machine.status = .idle ∧ h.loaded = false ∧ [0x01#8].length ≤ 256 ∧ h.machine.mem.wf) ∧
    (∃ h : Session, h.machine.status ≠ .idle) ∧ (∃ h : Session, h.loaded = true) ∧
    256 < (List.replicate 257 0x01#8).length :=
  ⟨⟨Session.construct, by decide⟩, ⟨⟨runningAt 0 [], false⟩, by decide⟩, ⟨⟨State.reset, true⟩, rfl⟩,
    Nat.lt_of_lt_of_eq (by decide) List.length_replicate.symm⟩

theorem witness_RunLoopReturnsTheEnd :
    (∃ r, (runningAt 0 [0x01#8]).runLoop 1 = some r) ∧
    (∃ t, Reaches (runningAt 0 [0x01#8]) t ∧ t.status = .halted) ∧
    ∃ t, Reaches (runningAt 0 []) t ∧ t.status = .faulted ∧ t.fault = some ⟨.illegalInstruction 0, 0⟩ :=
  ⟨⟨_, rfl⟩, ⟨_, .tail .refl rfl, rfl⟩, _, .tail .refl rfl, rfl, rfl⟩

/-- 256 and 257 bytes; a text with a malformed line; a text of an ignored line and a byte. -/
theorem witness_LoaderReadsProgramText :
    (List.replicate 256 0x01#8).length ≤ 256 ∧ 256 < (List.replicate 257 0x01#8).length ∧
    readProgram (some (binaryLiteral 0x82)) = .ok [0x82#8] ∧
    (∃ line ∈ splitLines ['X', '\n', '1', '0', '2'], parseLine line = .malformed) ∧
    ((splitLines ('X' :: '\n' :: binaryLiteral 0x82)).map parseLine).filter (· ≠ .ignored) =
      [0x82#8].map .byte :=
  ⟨Nat.le_of_eq List.length_replicate, Nat.lt_of_lt_of_eq (by decide) List.length_replicate.symm,
    by decide, ⟨['1', '0', '2'], by decide, by decide⟩, by decide⟩

/-- Lines of 1, 2, 7, 8 and 9 characters that begin with a digit, one of 8 with a wrong digit, a line of
blanks, and one that begins otherwise. -/
theorem witness_LoaderLineForms :
    (0 < 1 ∧ 1 < 8) ∧ (0 < 7 ∧ 7 < 8) ∧ ('L' ≠ '0' ∧ 'L' ≠ '1' ∧ 'L'.isWhitespace = false) ∧
    (∀ c ∈ [' ', '\t'], c.isWhitespace = true) ∧
    (['1', '0', '0', '0', '0', '0', '1', '0'].length = 8 ∧
      ∀ d ∈ ['1', '0', '0', '0', '0', '0', '1', '0'], d = '0' ∨ d = '1') ∧
    ('#' ∉ ['0'] ∧ ['1', '0'].getLast? = some '0' ∧ '0'.isWhitespace = false ∧ ['1', '0'].length ≠ 8) ∧
    ((binaryLiteral 0x82 ++ ['1']).getLast? = some '1' ∧ (binaryLiteral 0x82 ++ ['1']).length ≠ 8) ∧
    ∃ d ∈ ['0', '0', '2', '0', '0', '0', '0'], d ≠ '0' ∧ d ≠ '1' :=
  ⟨by decide, by decide, by decide, by simp, ⟨rfl, by simp⟩, by decide, by decide, '2', by decide, by decide⟩

theorem witness_RenderedNumberIsDecimal : (renderNum 0).head? = some '0' ∧ '7' ∈ renderNum 7 := by decide

theorem witness_MemoryReadAfterWrite : Memory.wf ⟨[(5, 1#8), (255, 2#8)]⟩ ∧ 255 ≠ 5 := by decide

theorem witness_MemoryFormIsCanonical :
    Memory.wf ⟨[(0, 1#8), (255, 2#8)]⟩ ∧
    ∀ a, a < 256 → Memory.read ⟨[(0, 1#8), (255, 2#8)]⟩ a = ((Memory.write ⟨[]⟩ 255 2).write 0 1).read a :=
  ⟨by decide, fun _ _ => rfl⟩

theorem witness_MemoryBoundsChecked : 255 < 256 ∧ 256 ≤ 256 := by decide

/-- The last cell, as the one operand of a fetch and as the second of two. -/
theorem witness_FetchSeesStore :
    State.reset.mem.wf ∧ (∃ t, State.reset.memWrite 255 7 = .ok t) ∧ 254 + 1 = 255 ∧
    (1 ≤ 1 ∧ 1 ≤ 1 ∧ 254 + 1 = 255 ∧ 254 + 1 < 256) ∧ (1 ≤ 2 ∧ 2 ≤ 2 ∧ 253 + 2 = 255 ∧ 253 + 2 < 256) :=
  ⟨by decide, ⟨_, rfl⟩, rfl, by decide, by decide⟩

theorem witness_RegisterReadChecks :
    8 ≤ (8#8).toNat ∧ (0#8).toNat < 8 ∧ State.reset.slot ⟨(0#8).toNat, by decide⟩ = none ∧
    State.reset.slot ⟨(7#8).toNat, by decide⟩ = some 0xF4#8 := by decide

theorem witness_RegisterWriteOverwrites :
    8 ≤ (8#8).toNat ∧ (7#8).toNat < 8 ∧ (6 : Fin 8).val ≠ (7#8).toNat := by decide

theorem witness_UnsupportedAluOperationUnreachable :
    ∃ s t : State, step s = .next t ∧ s.fault = none ∧ ∃ r, t.fault = some r :=
  ⟨runningAt 0 [], _, rfl, rfl, _, rfl⟩

theorem witness_WellFormedNamesRegisters :
    WellFormed (.prn 4) ∧ State.reset.fault = none ∧
    ∃ t, exec (.prn 4) State.reset = .next t ∧ ∃ r, t.fault = some r :=
  ⟨by decide, rfl, _, rfl, _, rfl⟩

theorem witness_UnnamedSlotsAreInert :
    (5 : Fin 8) ≠ 7 ∧ (∀ r ∈ (Instr.push 0).regOperands, r.toNat ≠ (5 : Fin 8).val) ∧
    ∃ t, exec (.push 0) (State.reset.withSlot 0 1) = .next t :=
  ⟨by decide, by decide, _, rfl⟩

theorem witness_HltRule : ∃ s : State, s.status = .running ∧ s.pc < 256 ∧ s.mem.read s.pc = 0x01#8 :=
  ⟨runningAt 255 [0x01#8], by decide⟩

theorem witness_LdiRule :
    8 ≤ (8#8).toNat ∧ (7#8).toNat < 8 ∧
    ∃ s : State, s.status = .running ∧ s.pc < 256 ∧ s.mem.read s.pc = 0x82#8 ∧ 254 ≤ s.pc :=
  ⟨by decide, by decide, runningAt 254 [0x82#8], by decide⟩

/-- LDI R7 with v = 0, 1, 254 and 255, from a state whose R0 is set. -/
theorem witness_LdiMovesTheStack :
    (1#8 ≠ 0 ∧ (0 : Fin 8) ≠ 7 ∧ ∃ t, exec (.ldi 7 1) (State.reset.withSlot 0 9) = .next t ∧
      t.slot 0 = some 9 ∧ t.pc + 2 < 256) ∧
    (254#8).toNat < 255 ∧ (255#8).toNat = 255 :=
  ⟨⟨by decide, by decide, _, rfl, by decide⟩, by decide, by decide⟩

theorem witness_PrnRule :
    8 ≤ (8#8).toNat ∧ State.reset.slot ⟨(6#8).toNat, by decide⟩ = none ∧
    State.reset.slot ⟨(7#8).toNat, by decide⟩ = some 0xF4#8 ∧
    ∃ s : State, s.status = .running ∧ s.pc = 255 ∧ s.mem.read s.pc = 0x47#8 :=
  ⟨by decide, by decide, by decide, runningAt 255 [0x47#8], by decide⟩

theorem witness_HltPrnFrame :
    (∃ t, exec .hlt State.reset = .next t) ∧ ∃ t, exec (.prn 7) State.reset = .next t := ⟨⟨_, rfl⟩, _, rfl⟩

theorem witness_AddRule :
    8 ≤ (8#8).toNat ∧ State.reset.slot ⟨(6#8).toNat, by decide⟩ = none ∧
    State.reset.slot ⟨(7#8).toNat, by decide⟩ = some 0xF4#8 ∧
    ∃ s : State, s.status = .running ∧ s.pc < 256 ∧ s.mem.read s.pc = 0xA0#8 ∧ 254 ≤ s.pc :=
  ⟨by decide, by decide, by decide, runningAt 255 [0xA0#8], by decide⟩

theorem witness_MulRule :
    8 ≤ (8#8).toNat ∧ State.reset.slot ⟨(6#8).toNat, by decide⟩ = none ∧
    State.reset.slot ⟨(7#8).toNat, by decide⟩ = some 0xF4#8 ∧
    ∃ s : State, s.status = .running ∧ s.pc < 256 ∧ s.mem.read s.pc = 0xA2#8 ∧ 254 ≤ s.pc :=
  ⟨by decide, by decide, by decide, runningAt 254 [0xA2#8], by decide⟩

theorem witness_LdiAddMulFrame :
    (∃ t, exec (.ldi 3 42) State.reset = .next t) ∧ (∃ t, exec (.add 7 7) State.reset = .next t) ∧
    (∃ t, exec (.mul 7 7) State.reset = .next t) ∧ (2 : Fin 8).val ≠ (3#8).toNat :=
  ⟨⟨_, rfl⟩, ⟨_, rfl⟩, ⟨_, rfl⟩, by decide⟩

/-- PUSH's clauses: SP = 0; SP = 1 with a bad index, an UNSET register, a set register, and R7. -/
theorem witness_PushRule :
    (State.reset.withSlot 7 0).slot 7 = some 0 ∧
    ((State.reset.withSlot 7 1).slot 7 = some 1 ∧ (1#8 ≠ 0) ∧ 8 ≤ (8#8).toNat) ∧
    ((State.reset.withSlot 7 1).slot ⟨(6#8).toNat, by decide⟩ = none ∧ (6#8 ≠ 7)) ∧
    ((State.reset.withSlot 7 1).withSlot 6 9).slot ⟨(6#8).toNat, by decide⟩ = some 9 ∧
    ∃ s : State, s.status = .running ∧ s.pc = 255 ∧ s.mem.read s.pc = 0x45#8 :=
  ⟨by decide, by decide, by decide, by decide, runningAt 255 [0x45#8], by decide⟩

/-- POP's clauses: SP = 255 and SP = 254; a popped byte 255 and 254 for POP R7. -/
theorem witness_PopRule :
    (State.reset.slot 7 = some 0xF4#8 ∧ 8 ≤ (8#8).toNat) ∧
    ((6#8).toNat < 8 ∧ (6#8 ≠ 7) ∧ (State.reset.withSlot 7 255).slot 7 = some 255) ∧
    ((State.reset.withSlot 7 254).slot 7 = some 254 ∧ (254#8 ≠ 255)) ∧
    ((State.reset.withMem ⟨[(244, 255#8)]⟩).slot 7 = some 0xF4#8 ∧
      (State.reset.withMem ⟨[(244, 255#8)]⟩).mem.read (0xF4#8).toNat = 255) ∧
    (State.reset.withMem ⟨[(244, 254#8)]⟩).mem.read (0xF4#8).toNat ≠ 255 ∧
    ∃ s : State, s.status = .running ∧ s.pc = 255 ∧ s.mem.read s.pc = 0x46#8 :=
  ⟨by decide, by decide, by decide, by decide, by decide, runningAt 255 [0x46#8], by decide⟩

/-- A PUSH and a CALL at SP = 0; a RET, a POP and a POP R7 that would leave 256. -/
theorem witness_StackBoundsFault :
    ((State.reset.withSlot 7 0).slot 7 = some 0 ∧ State.reset.fault = none ∧
      exec (.push 0) (State.reset.withSlot 7 0) =
        .next ((State.reset.withSlot 7 0).takeFault (.stackExhausted (-1)))) ∧
    ((State.reset.withSlot 7 255).slot 7 = some 255 ∧ (6#8).toNat < 7 ∧
      exec .ret (State.reset.withSlot 7 255) =
        .next ((State.reset.withSlot 7 255).takeFault (.stackExhausted 256))) ∧
    ((State.reset.withMem ⟨[(244, 255#8)]⟩).slot 7 = some 0xF4#8 ∧
      (State.reset.withMem ⟨[(244, 255#8)]⟩).mem.read (0xF4#8).toNat = 255) :=
  ⟨⟨by decide, rfl, rfl⟩, ⟨by decide, by decide, rfl⟩, by decide⟩

theorem witness_StackPointerNeverWraps :
    State.reset.slot 7 = some 0xF4#8 ∧ State.reset.status ≠ .faulted ∧
    (∃ t, exec (.push 7) State.reset = .next t ∧ t.status ≠ .faulted) ∧
    (∃ t, exec (.call 7) State.reset = .next t ∧ t.status ≠ .faulted) ∧
    (∃ t, exec .ret State.reset = .next t ∧ t.status ≠ .faulted) ∧
    (∃ t, exec (.pop 0) State.reset = .next t ∧ t.status ≠ .faulted) ∧
    ∃ t, exec (.pop 7) State.reset = .next t ∧ t.status ≠ .faulted :=
  ⟨by decide, by decide, ⟨_, rfl, by decide⟩, ⟨_, rfl, by decide⟩, ⟨_, rfl, by decide⟩, ⟨_, rfl, by decide⟩,
    _, rfl, by decide⟩

theorem witness_PushPopRoundTrip :
    ((State.reset.withSlot 0 5).withSlot 7 1).mem.wf ∧ (0 : Fin 8) ≠ 7 ∧ (6 : Fin 8) ≠ 7 ∧ (0 : Fin 8) ≠ 6 ∧
    ((State.reset.withSlot 0 5).withSlot 7 1).slot 0 = some 5 ∧
    ((State.reset.withSlot 0 5).withSlot 7 1).slot 7 = some 1 ∧ (1#8 ≠ 0) := by decide

/-- A push that stores, at SP = 1, and one that does not, at SP = 0. -/
theorem witness_PushCallFrame :
    (∃ t, exec (.push 7) (State.reset.withSlot 7 1) = .next t) ∧
    (∃ t, exec (.call 7) (State.reset.withSlot 7 1) = .next t) ∧
    ((State.reset.withSlot 7 1).getSp = .ok 1 ∧ checkSp ((1#8).toNat - 1) = .ok 0) ∧
    (∀ sp sp1 : Byte, (State.reset.withSlot 7 0).getSp = .ok sp → checkSp (sp.toNat - 1) ≠ .ok sp1) :=
  ⟨⟨_, rfl⟩, ⟨_, rfl⟩, ⟨rfl, rfl⟩, fun sp sp1 h => by
    have : (State.reset.withSlot 7 0).getSp = .ok 0#8 := rfl
    rw [this] at h
    cases h
    simp [checkSp]⟩

theorem witness_PopRetFrame :
    (∃ t, exec (.pop 0) State.reset = .next t) ∧ (∃ t, exec .ret State.reset = .next t) ∧
    (1 : Fin 8) ≠ 7 ∧ (0#8).toNat ≠ (1 : Fin 8).val := ⟨⟨_, rfl⟩, ⟨_, rfl⟩, by decide⟩

/-- CALL's clauses, at SP = 0 and SP = 1, and at pc = 253 and 254. -/
theorem witness_CallRule :
    (State.reset.withSlot 7 0).slot 7 = some 0 ∧
    ((State.reset.withSlot 7 1).slot 7 = some 1 ∧ (1#8 ≠ 0)) ∧
    255 < (runningAt 254 []).pc + 2 ∧ (runningAt 253 []).pc + 2 ≤ 255 ∧ 8 ≤ (8#8).toNat ∧
    ((runningAt 253 []).withSlot 7 1).slot ⟨(6#8).toNat, by decide⟩ = none ∧ (6#8 ≠ 7) ∧
    (((runningAt 253 []).withSlot 7 1).withSlot 6 9).slot ⟨(6#8).toNat, by decide⟩ = some 9 ∧
    ∃ s : State, s.status = .running ∧ s.pc = 255 ∧ s.mem.read s.pc = 0x50#8 :=
  ⟨by decide, by decide, by decide, by decide, by decide, by decide, by decide, by decide,
    runningAt 255 [0x50#8], by decide⟩

theorem witness_RetRule :
    (State.reset.withSlot 7 255).slot 7 = some 255 ∧
    ((State.reset.withSlot 7 254).slot 7 = some 254 ∧ (254#8 ≠ 255)) ∧
    ∃ s : State, s.status = .running ∧ s.pc < 256 ∧ s.mem.read s.pc = 0x11#8 :=
  ⟨by decide, by decide, runningAt 255 [0x11#8], by decide⟩

theorem witness_CallReturnLaw :
    ((runningAt 253 []).withSlot 6 9).mem.wf ∧ ((runningAt 253 []).withSlot 6 9).slot 7 = some 0xF4#8 ∧ (0xF4#8 ≠ 0) ∧
    ((runningAt 253 []).withSlot 6 9).pc + 2 ≤ 255 ∧ (6#8 ≠ 7) ∧
    ((runningAt 253 []).withSlot 6 9).slot ⟨(6#8).toNat, by decide⟩ = some 9 ∧
    ∃ u : State, u.slot 7 = some 0xF3#8 ∧ u.mem.read 0xF3 = 255 :=
  ⟨by decide, by decide, by decide, by decide, by decide, by decide,
    (State.reset.withSlot 7 0xF3).withMem ⟨[(0xF3, 255#8)]⟩, by decide⟩

end Sys2Proof.Tests
end

section
/-! What an instruction can do to the state, said once for all nine: it halts, it faults, or it evolves
the state and moves the pc. The invariant, the transitions of the status and the lasting of written
slots follow from this. -/

namespace Sys2Proof.Machine

/-- What the writes of an instruction that neither halts nor faults keep, from `s` to `t`: the parts of
the invariant that do not speak of the pc, each on its own. -/
structure State.Evolves (s t : State) : Prop where
  status : t.status = s.status
  fault : t.fault = s.fault
  shutdown : Event.shutdown ∈ t.out ↔ Event.shutdown ∈ s.out
  mem_wf : s.mem.wf → t.mem.wf
  written : ∀ k, s.slot k ≠ none → t.slot k ≠ none

namespace State.Evolves

variable {s t : State}

theorem refl (s : State) : s.Evolves s := ⟨rfl, rfl, .rfl, id, fun _ => id⟩

/-- A slot write can only clear an UNSET marker (R24). -/
theorem withSlot (h : s.Evolves t) (k : Fin 8) (v : Byte) : s.Evolves (t.withSlot k v) where
  status := h.status
  fault := h.fault
  shutdown := h.shutdown
  mem_wf := h.mem_wf
  written j hj := by
    rw [State.slot_withSlot]
    split
    · simp
    · exact h.written j hj

/-- A store at the address a byte holds stays inside memory. -/
theorem write (h : s.Evolves t) (a v : Byte) : s.Evolves (t.withMem (t.mem.write a.toNat v)) where
  status := h.status
  fault := h.fault
  shutdown := h.shutdown
  mem_wf hs := Memory.write_wf v (h.mem_wf hs) a.isLt
  written := h.written

theorem emit_num (h : s.Evolves t) (v : Byte) : s.Evolves (t.emit (.num v)) where
  status := h.status
  fault := h.fault
  shutdown := by simp [h.shutdown]
  mem_wf := h.mem_wf
  written := h.written

theorem withPc (h : s.Evolves t) (p : Nat) : s.Evolves (t.withPc p) :=
  ⟨h.status, h.fault, h.shutdown, h.mem_wf, h.written⟩

end State.Evolves

/-- Everything an instruction can do. HLT halts, and only HLT; any other takes the fault entry, or
evolves the state with the pc past its own bytes or at an address a byte holds (R85, R90). -/
theorem exec_cases {i : Instr} {s t : State} (h : exec i s = .next t) :
    (i = .hlt ∧ t = { s with status := .halted, out := s.out ++ [.shutdown], pc := s.pc + 1 }) ∨
    (i ≠ .hlt ∧ s.Evolves t ∧ (t.pc = s.pc + (encode i).length ∨ t.pc < 256)) ∨
    (i ≠ .hlt ∧ ∃ c, t = s.takeFault c) := by
  have hs := State.Evolves.refl s
  cases i with
  | hlt =>
    cases h
    exact .inl ⟨rfl, rfl⟩
  | ldi r v =>
    rcases execLdi_cases h with ⟨k, -, rfl⟩ | hc
    · exact .inr (.inl ⟨nofun, (hs.withSlot k _).withPc _, .inl rfl⟩)
    · exact .inr (.inr ⟨nofun, hc⟩)
  | prn r =>
    rcases execPrn_cases h with ⟨-, x, -, -, rfl⟩ | hc
    · exact .inr (.inl ⟨nofun, (hs.emit_num x).withPc _, .inl rfl⟩)
    · exact .inr (.inr ⟨nofun, hc⟩)
  | add ra rb =>
    rcases execAdd_cases h with ⟨k, -, x, y, -, -, -, -, rfl⟩ | hc
    · exact .inr (.inl ⟨nofun, (hs.withSlot k _).withPc _, .inl rfl⟩)
    · exact .inr (.inr ⟨nofun, hc⟩)
  | mul ra rb =>
    rcases execMul_cases h with ⟨k, -, x, y, -, -, -, -, rfl⟩ | hc
    · exact .inr (.inl ⟨nofun, (hs.withSlot k _).withPc _, .inl rfl⟩)
    · exact .inr (.inr ⟨nofun, hc⟩)
  | push r =>
    rcases execPush_cases h with ⟨-, -, sp1, x, -, -, -, -, rfl⟩ | hc
    · exact .inr (.inl ⟨nofun, ((hs.withSlot 7 sp1).write sp1 x).withPc _, .inl rfl⟩)
    · exact .inr (.inr ⟨nofun, hc⟩)
  | pop r =>
    rcases execPop_cases h with ⟨k, -, -, sp2, -, -, -, -, rfl⟩ | hc
    · exact .inr (.inl ⟨nofun, ((hs.withSlot k _).withSlot 7 sp2).withPc _, .inl rfl⟩)
    · exact .inr (.inr ⟨nofun, hc⟩)
  | call r =>
    rcases execCall_cases h with ⟨-, -, sp1, x, -, -, -, -, -, rfl⟩ | hc
    · exact .inr (.inl ⟨nofun, ((hs.withSlot 7 sp1).write sp1 _).withPc _, .inr x.isLt⟩)
    · exact .inr (.inr ⟨nofun, hc⟩)
  | ret =>
    rcases execRet_cases h with ⟨sp, sp2, -, -, rfl⟩ | hc
    · exact .inr (.inl ⟨nofun, (hs.withSlot 7 sp2).withPc _, .inr (s.mem.read sp.toNat).isLt⟩)
    · exact .inr (.inr ⟨nofun, hc⟩)

/-- An operation's instruction has an opcode byte and as many operand bytes as that byte says. -/
theorem length_encode_instr (ins : Op) (o : List Byte) :
    (encode (ins.instr o)).length = 1 + operandCount ins.byte := by
  rw [operandCount_byte]
  cases ins <;> rfl

/-- A fetched instruction lies inside memory with all its bytes (R81, R82). -/
theorem fetchInstr_fits {s : State} {i : Instr} (h : s.fetchInstr = .ok i) :
    s.pc + (encode i).length ≤ 256 := by
  rcases s.fetchInstr_cases with ⟨-, hf⟩ | ⟨-, -, hf⟩ | ⟨-, -, -, -, hf⟩ | ⟨ins, hn, hop, hf⟩
  · cases h.symm.trans hf
  · cases h.symm.trans hf
  · cases h.symm.trans hf
  · cases h.symm.trans hf
    rw [length_encode_instr, ← byte_of_boundOp hop]
    omega

namespace State.Inv

variable {s t : State}

theorem fault_none (h : s.Inv) (hr : s.status = .running) : s.fault = none := by
  by_contra hf
  rw [h.fault_iff_faulted.mp hf] at hr
  cases hr

theorem no_shutdown (h : s.Inv) (hr : s.status = .running) : Event.shutdown ∉ s.out := fun hm => by
  rw [h.shutdown_iff_halted.mp hm] at hr
  cases hr

/-- The fault entry keeps the invariant (R30, R184, R185). -/
theorem takeFault (h : s.Inv) (hr : s.status = .running) (c : Cause) : (s.takeFault c).Inv where
  mem_wf := h.mem_wf
  pc_range := h.pc_range
  sp_set := h.sp_set
  fault_iff_faulted := by simp
  fault_pc := by simp
  shutdown_iff_halted := by simp [h.no_shutdown hr]

/-- An evolution keeps the invariant wherever it leaves the pc in range. -/
theorem evolves (h : s.Inv) (hr : s.status = .running) (he : s.Evolves t) (hpc : t.pc ≤ 256) :
    t.Inv where
  mem_wf := he.mem_wf h.mem_wf
  pc_range := hpc
  sp_set := he.written _ h.sp_set
  fault_iff_faulted := by rw [he.fault, he.status]; exact h.fault_iff_faulted
  fault_pc r hf := by
    rw [he.fault, h.fault_none hr] at hf
    cases hf
  shutdown_iff_halted := by rw [he.shutdown, he.status]; exact h.shutdown_iff_halted

/-- HLT keeps the invariant: `Shutdown` and Halted come together (R29, R31, R100). -/
theorem halt (h : s.Inv) (hr : s.status = .running) (hpc : s.pc + 1 ≤ 256) :
    State.Inv { s with status := .halted, out := s.out ++ [.shutdown], pc := s.pc + 1 } where
  mem_wf := h.mem_wf
  pc_range := hpc
  sp_set := h.sp_set
  fault_iff_faulted := by simp [h.fault_none hr]
  fault_pc := by simp [h.fault_none hr]
  shutdown_iff_halted := by simp

end State.Inv

/-- Settles O16: the fetch keeps the whole instruction inside memory, so the pc it advances to is at
most 256, and each of the three things `exec` can do keeps the rest. -/
theorem stepKeepsInv : Obligations.StepKeepsInv := by
  intro s t hs h
  obtain ⟨hr, ⟨i, hf, hi⟩ | ⟨c, -, rfl⟩⟩ := step_cases h
  · have hfit := fetchInstr_fits hf
    rcases exec_cases hi with ⟨rfl, rfl⟩ | ⟨-, he, hpc⟩ | ⟨-, c, rfl⟩
    · exact hs.halt hr hfit
    · exact hs.evolves hr he (by omega)
    · exact hs.takeFault hr c
  · exact hs.takeFault hr c

/-- Settles O15: each clause of the invariant on the reset table (R36). -/
theorem invAtReset : Obligations.InvAtReset where
  mem_wf := Memory.empty_wf
  pc_range := Nat.zero_le _
  sp_set := by simp [State.slot_reset]
  fault_iff_faulted := by simp [State.reset]
  fault_pc := nofun
  shutdown_iff_halted := by simp [State.reset]

/-- What a step of a running machine leaves as status: the three rows of R29 that leave Running. -/
theorem step_status {s t : State} (h : step s = .next t) : s.status = .running ∧
    ((s.fetchInstr = .ok .hlt ∧ t.status = .halted) ∨
     (t.status = .faulted ∧ ((∃ c, s.fetchInstr = .error c) ∨
       ∃ i, s.fetchInstr = .ok i ∧ i ≠ .hlt ∧ ∃ c, exec i s = .next (s.takeFault c))) ∨
     ((∃ i, s.fetchInstr = .ok i ∧ i ≠ .hlt) ∧ t.status = .running)) := by
  obtain ⟨hr, ⟨i, hf, hi⟩ | ⟨c, hf, rfl⟩⟩ := step_cases h
  · refine ⟨hr, ?_⟩
    rcases exec_cases hi with ⟨rfl, rfl⟩ | ⟨hne, he, -⟩ | ⟨hne, c, rfl⟩
    · exact .inl ⟨hf, rfl⟩
    · exact .inr (.inr ⟨⟨i, hf, hne⟩, he.status.trans hr⟩)
    · exact .inr (.inl ⟨rfl, .inr ⟨i, hf, hne, c, hi⟩⟩)
  · exact ⟨hr, .inr (.inl ⟨rfl, .inl ⟨c, hf⟩⟩)⟩

theorem runCommand_idle {s : State} (h : s.status = .idle) :
    s.runCommand = .next { s with status := .running } := if_pos h

theorem runCommand_not_idle {s : State} (h : s.status ≠ .idle) :
    s.runCommand = .refused .runNotIdle := if_neg h

/-- Settles O10, from what a step can leave as status and the host's `run` in and outside Idle. -/
theorem statusTransitions : Obligations.StatusTransitions := by
  refine ⟨fun _ => runCommand_idle, fun _ _ => step_status, fun s hs => ⟨fun t h => ?_, fun t h => ?_⟩,
    fun _ => runCommand_not_idle⟩
  · obtain ⟨hr, -⟩ := step_status h
    simp [hr] at hs
  · have hidle : s.status ≠ .idle := by rcases hs with hs | hs <;> simp [hs]
    rw [runCommand_not_idle hidle] at h
    cases h

/-- One step makes no slot UNSET (R24). -/
theorem step_written {s t : State} (h : step s = .next t) {k : Fin 8} (hk : s.slot k ≠ none) :
    t.slot k ≠ none := by
  obtain ⟨-, ⟨i, -, hi⟩ | ⟨c, -, rfl⟩⟩ := step_cases h
  · rcases exec_cases hi with ⟨-, rfl⟩ | ⟨-, he, -⟩ | ⟨-, c, rfl⟩
    · exact hk
    · exact he.written k hk
    · exact hk
  · exact hk

/-- Settles O18, by induction on the steps. -/
theorem writtenSlotsStayWritten : Obligations.WrittenSlotsStayWritten := by
  intro s t k h hk
  induction h with
  | refl => exact hk
  | tail _ hstep ih => exact step_written hstep ih

end Sys2Proof.Machine
end

section
/-! The reset table, the canonical memory and the register file's two ports. -/

namespace Sys2Proof.Machine

/-- Settles O27: canonical memories also agree past the last cell, where both read blank. -/
theorem memoryFormIsCanonical : Obligations.MemoryFormIsCanonical := by
  rintro ⟨cs⟩ ⟨ds⟩ hm hn h
  refine congrArg Memory.mk (cells_ext hm hn fun a => ?_)
  rcases Nat.lt_or_ge a 256 with ha | ha
  · exact h a ha
  · exact (Memory.read_outside hm ha).trans (Memory.read_outside hn ha).symm

/-- Loading at most 256 bytes into a newly constructed machine places them from address 0 on (R212). -/
theorem load_construct {bytes : List Byte} (h : bytes.length ≤ 256) : Session.construct.load bytes =
    .next ⟨{ State.reset with mem := State.reset.mem.place 0 bytes }, true⟩ := by
  simp [Session.load, Session.construct, State.reset, Nat.not_lt.mpr h]

/-- The cells of a program placed in a blank memory: its bytes, and zeros past its end. -/
theorem Memory.read_place_empty {bytes : List Byte} (h : bytes.length ≤ 256) (a : Nat) :
    (Memory.place ⟨[]⟩ 0 bytes).read a = bytes.getD a 0 := by
  rw [Memory.read_place 0 a bytes Memory.empty_wf (by simpa using h)]
  split
  · rfl
  · rename_i ha
    simp [List.getElem?_eq_none (show bytes.length ≤ a by omega)]

/-- Settles O19, row by row of the reset table. -/
theorem resetValues : Obligations.ResetValues :=
  ⟨Memory.read_empty, fun k hk => by simp [State.slot_reset, hk], State.slot_reset 7, rfl, rfl, rfl, rfl,
    fun _ hb => ⟨_, load_construct hb, Memory.read_place_empty hb⟩⟩

/-- Settles O30: the index check, then the slot's value or its UNSET fault. -/
theorem registerReadChecks : Obligations.RegisterReadChecks :=
  fun s _ => ⟨s.getReg_outside, fun h hn => by rw [s.getReg_inside h, hn, slotValue_none],
    fun h v hv => by rw [s.getReg_inside h, hv, slotValue_some]⟩

/-- Settles O31: below 8 the write answers the state with that one slot overwritten. -/
theorem registerWriteOverwrites : Obligations.RegisterWriteOverwrites := by
  refine fun s i v => ⟨s.setReg_outside v, fun h => ⟨_, s.setReg_inside v h, ?_, fun k hk => ?_, rfl⟩⟩
  · exact s.slot_withSlot_same _ v
  · exact s.slot_withSlot_other _ k v fun hki => hk (congrArg Fin.val hki)

end Sys2Proof.Machine
end

section
/-! The frames: what each group of instructions leaves as it was. Each is read off the one effect the
group's instructions have in common. -/

namespace Sys2Proof.Machine

/-- LDI, ADD and MUL write the slot their first operand names and move the pc, or fault. -/
theorem exec_ldiAddMul_cases {i : Instr} {r x : Byte} {s t : State}
    (hi : i = .ldi r x ∨ i = .add r x ∨ i = .mul r x) (h : exec i s = .next t) :
    (∃ (k : Fin 8) (v : Byte), r.toNat = k.val ∧ t = (s.withSlot k v).withPc (s.pc + 3)) ∨
    ∃ c, t = s.takeFault c := by
  rcases hi with rfl | rfl | rfl
  · exact (execLdi_cases h).imp_left fun ⟨k, hk, ht⟩ => ⟨k, _, hk, ht⟩
  · exact (execAdd_cases h).imp_left fun ⟨k, _, _, _, hk, _, _, _, ht⟩ => ⟨k, _, hk, ht⟩
  · exact (execMul_cases h).imp_left fun ⟨k, _, _, _, hk, _, _, _, ht⟩ => ⟨k, _, hk, ht⟩

/-- Settles O44: the effect is one slot write and the pc. -/
theorem ldiAddMulFrame : Obligations.LdiAddMulFrame := by
  intro i r x s t hi h
  rcases exec_ldiAddMul_cases hi h with ⟨k, v, hk, rfl⟩ | ⟨c, rfl⟩
  · refine ⟨fun j hj => ?_, fun _ => rfl, rfl, .inl ⟨rfl, rfl⟩⟩
    exact s.slot_withSlot_other k j v fun hjk => hj (hjk ▸ hk.symm)
  · exact ⟨fun _ _ => rfl, fun _ => rfl, rfl, .inr ⟨c, rfl⟩⟩

/-- PUSH and CALL move SP down by one, store a byte there and move the pc, or fault. -/
theorem exec_pushCall_cases {i : Instr} {s t : State} (hi : ∃ r, i = .push r ∨ i = .call r)
    (h : exec i s = .next t) :
    (∃ (sp sp1 x : Byte) (p : Nat), s.getSp = .ok sp ∧ checkSp (sp.toNat - 1) = .ok sp1 ∧
      t = ((s.withSlot 7 sp1).withMem (s.mem.write sp1.toNat x)).withPc p) ∨
    ∃ c, t = s.takeFault c := by
  obtain ⟨r, rfl | rfl⟩ := hi
  · refine (execPush_cases h).imp_left fun ⟨_, sp, sp1, x, hsp, hsp1, _, _, ht⟩ => ?_
    exact ⟨sp, sp1, x, _, State.getSp_eq_ok.mpr hsp, checkSp_eq_ok.mpr (by omega), ht⟩
  · refine (execCall_cases h).imp_left fun ⟨_, sp, sp1, _, hsp, hsp1, _, _, _, ht⟩ => ?_
    exact ⟨sp, sp1, _, _, State.getSp_eq_ok.mpr hsp, checkSp_eq_ok.mpr (by omega), ht⟩

/-- Settles O50: the address stored to is the one the meaning's own SP and bounds check give. -/
theorem pushCallFrame : Obligations.PushCallFrame := by
  intro i s t hi h
  rcases exec_pushCall_cases hi h with ⟨sp, sp1, x, p, hsp, hsp1, rfl⟩ | ⟨c, rfl⟩
  · refine ⟨fun k hk => s.slot_withSlot_other 7 k sp1 hk, fun sp' sp1' hsp' hsp1' a ha => ?_,
      fun hno => absurd hsp1 (hno sp sp1 hsp), rfl, .inl ⟨rfl, rfl⟩⟩
    obtain rfl : sp = sp' := Except.ok.inj (hsp.symm.trans hsp')
    obtain rfl : sp1 = sp1' := Except.ok.inj (hsp1.symm.trans hsp1')
    exact s.mem.read_write_other x ha
  · exact ⟨fun _ _ => rfl, fun _ _ _ _ _ _ => rfl, fun _ _ => rfl, rfl, .inr ⟨c, rfl⟩⟩

/-- Settles O51: POP writes its operand's slot and SP, RET writes SP, and neither stores. -/
theorem popRetFrame : Obligations.PopRetFrame := by
  rintro i s t (⟨r, rfl⟩ | rfl) h
  · rcases execPop_cases h with ⟨j, sp, -, sp2, -, hj, -, -, rfl⟩ | ⟨c, rfl⟩
    · refine ⟨fun k hk hr => ?_, fun _ => rfl, rfl, .inl ⟨rfl, rfl⟩⟩
      have hkj : k ≠ j := fun hkj => hr r rfl (hkj ▸ hj)
      rw [State.slot_withPc, State.slot_withSlot_other _ _ _ _ hk, State.slot_withSlot_other _ _ _ _ hkj]
    · exact ⟨fun _ _ _ => rfl, fun _ => rfl, rfl, .inr ⟨c, rfl⟩⟩
  · rcases execRet_cases h with ⟨-, sp2, -, -, rfl⟩ | ⟨c, rfl⟩
    · exact ⟨fun k hk _ => s.slot_withSlot_other 7 k sp2 hk, fun _ => rfl, rfl, .inl ⟨rfl, rfl⟩⟩
    · exact ⟨fun _ _ _ => rfl, fun _ => rfl, rfl, .inr ⟨c, rfl⟩⟩

end Sys2Proof.Machine
end

section
/-! A slot no operand names, other than R7, is inert. Each operation a handler is made of commutes with
writing such a slot, whether it answers a state or raises; so does the commit, and so each handler. -/

namespace Sys2Proof.Machine

variable {s t : State} {k : Fin 8} {v r ra rb : Byte} {op : Op}

theorem map_bind {α : Type} (g : State → State) (x : Except Cause α) (f : α → Except Cause State) :
    (x >>= f).map g = x >>= fun a => (f a).map g := by
  cases x <;> rfl

theorem bind_map {α : Type} (g : State → State) (x : Except Cause State) (f : State → Except Cause α) :
    x.map g >>= f = x >>= fun a => f (g a) := by
  cases x <;> rfl

/-- Writes of two different slots commute. -/
theorem State.withSlot_comm (s : State) {j k : Fin 8} (v w : Byte) (h : j ≠ k) :
    (s.withSlot k v).withSlot j w = (s.withSlot j w).withSlot k v := by
  simp only [State.withSlot]
  congr 1
  exact Vector.set_comm _ _ (by simpa [Fin.ext_iff] using h.symm)

theorem State.withSlot_withPc (s : State) (k : Fin 8) (v : Byte) (p : Nat) :
    (s.withSlot k v).withPc p = (s.withPc p).withSlot k v := rfl

/-- Reading a register does not see a slot it does not name. -/
theorem State.getReg_withSlot (s : State) (v : Byte) (hr : r.toNat ≠ k.val) :
    (s.withSlot k v).getReg r = s.getReg r := by
  rcases Nat.lt_or_ge r.toNat 8 with h | h
  · rw [State.getReg_inside _ h, State.getReg_inside _ h, State.slot_withSlot_other]
    exact fun hk => hr (congrArg Fin.val hk)
  · rw [State.getReg_outside _ h, State.getReg_outside _ h]

theorem State.getSp_withSlot (s : State) (v : Byte) (h7 : k ≠ 7) : (s.withSlot k v).getSp = s.getSp := by
  rw [State.getSp_eq, State.getSp_eq, State.slot_withSlot_other _ _ _ _ h7.symm]

/-- Writing a register commutes with writing a slot it does not name. -/
theorem State.setReg_withSlot (s : State) (v w : Byte) (hr : r.toNat ≠ k.val) :
    (s.withSlot k v).setReg r w = (s.setReg r w).map (·.withSlot k v) := by
  rcases Nat.lt_or_ge r.toNat 8 with h | h
  · rw [State.setReg_inside _ _ h, State.setReg_inside _ _ h, State.withSlot_comm]
    · rfl
    · exact fun hk => hr (congrArg Fin.val hk)
  · rw [State.setReg_outside _ _ h, State.setReg_outside _ _ h]
    rfl

theorem State.memRead_withSlot (s : State) (a : Nat) : (s.withSlot k v).memRead a = s.memRead a := rfl

theorem State.memWrite_withSlot (s : State) (a : Nat) (w : Byte) :
    (s.withSlot k v).memWrite a w = (s.memWrite a w).map (·.withSlot k v) := by
  simp only [State.memWrite]
  split <;> rfl

/-- The ALU reads and writes the registers its operands name, and no other. -/
theorem State.aluApply_withSlot (s : State) (aop : AluOp) (ha : ra.toNat ≠ k.val) (hb : rb.toNat ≠ k.val) :
    (s.withSlot k v).aluApply aop ra rb = (s.aluApply aop ra rb).map (·.withSlot k v) := by
  simp only [State.aluApply, map_bind, State.getReg_withSlot _ _ ha, State.getReg_withSlot _ _ hb,
    State.setReg_withSlot _ _ _ ha]

/-- A commit commutes with writing a slot if what the handler computed does. -/
theorem commit_withSlot {x y : Except Cause State} (hy : y = x.map (·.withSlot k v))
    (h : commit op s x = .next t) : commit op (s.withSlot k v) y = .next (t.withSlot k v) := by
  subst hy
  rcases commit_cases h with ⟨u, rfl, rfl⟩ | ⟨c, rfl, rfl⟩ <;> rfl

theorem execPrn_withSlot (hr : r.toNat ≠ k.val) (h : execPrn r s = .next t) :
    execPrn r (s.withSlot k v) = .next (t.withSlot k v) := by
  refine commit_withSlot ?_ h
  rw [map_bind, State.getReg_withSlot _ _ hr]
  rfl

theorem execPush_withSlot (h7 : k ≠ 7) (hr : r.toNat ≠ k.val) (h : execPush r s = .next t) :
    execPush r (s.withSlot k v) = .next (t.withSlot k v) := by
  refine commit_withSlot ?_ h
  simp only [map_bind, ok_bind, State.getSp_withSlot _ _ h7, State.setSp_eq,
    State.withSlot_comm _ _ _ h7.symm, State.getReg_withSlot _ _ hr, State.memWrite_withSlot]

theorem execPop_withSlot (h7 : k ≠ 7) (hr : r.toNat ≠ k.val) (h : execPop r s = .next t) :
    execPop r (s.withSlot k v) = .next (t.withSlot k v) := by
  refine commit_withSlot ?_ h
  simp only [map_bind, bind_map, State.getSp_withSlot _ _ h7, State.setSp_eq,
    State.withSlot_comm _ _ _ h7.symm, State.setReg_withSlot _ _ _ hr, State.memRead_withSlot]
  rfl

theorem execCall_withSlot (h7 : k ≠ 7) (hr : r.toNat ≠ k.val) (h : execCall r s = .next t) :
    execCall r (s.withSlot k v) = .next (t.withSlot k v) := by
  refine commit_withSlot ?_ h
  simp only [map_bind, bind_map, ok_bind, State.getSp_withSlot _ _ h7, State.setSp_eq,
    State.withSlot_comm _ _ _ h7.symm, State.getReg_withSlot _ _ hr, State.memWrite_withSlot]
  rfl

theorem execRet_withSlot (h7 : k ≠ 7) (h : execRet s = .next t) :
    execRet (s.withSlot k v) = .next (t.withSlot k v) := by
  refine commit_withSlot ?_ h
  simp only [map_bind, State.getSp_withSlot _ _ h7, State.setSp_eq, State.memRead_withSlot,
    State.withSlot_withPc, State.withSlot_comm _ _ _ h7.symm]
  rfl

/-- Settles O35: every handler commutes with the write of a slot that it does not name. -/
theorem unnamedSlotsAreInert : Obligations.UnnamedSlotsAreInert := by
  intro i s t k v h7 hk h
  cases i with
  | hlt => cases h; rfl
  | ldi r x => exact commit_withSlot (State.setReg_withSlot s v x (hk r (.head _))) h
  | prn r => exact execPrn_withSlot (hk r (.head _)) h
  | add ra rb =>
    exact commit_withSlot (State.aluApply_withSlot s .add (hk ra (.head _)) (hk rb (.tail _ (.head _)))) h
  | mul ra rb =>
    exact commit_withSlot (State.aluApply_withSlot s .mul (hk ra (.head _)) (hk rb (.tail _ (.head _)))) h
  | push r => exact execPush_withSlot h7 (hk r (.head _)) h
  | pop r => exact execPop_withSlot h7 (hk r (.head _)) h
  | call r => exact execCall_withSlot h7 (hk r (.head _)) h
  | ret => exact execRet_withSlot h7 h

end Sys2Proof.Machine
end

section
/-! Memory as its users see it: a write at any address, the bounds check, and a store seen by a fetch. -/

namespace Sys2Proof.Machine

/-- A canonical cell list stays as it is when a cell gets the byte it already holds. Rising addresses
and no listed blank are enough for it: the address need not be one of memory's. -/
theorem writeCells_readCells {cs : List Host.Cell} (a : Nat)
    (hrise : cs.Pairwise (fun c d => c.1 < d.1)) (hblank : ∀ c ∈ cs, c.2 ≠ Memory.blank) :
    writeCells cs a (readCells cs a) = cs := by
  induction cs with
  | nil => rfl
  | cons c cs ih =>
    obtain ⟨k, w⟩ := c
    obtain ⟨hk, hrise⟩ := List.pairwise_cons.mp hrise
    obtain ⟨hw, hblank⟩ := List.forall_mem_cons.mp hblank
    rcases Nat.lt_trichotomy a k with hlt | rfl | hgt
    · have hunlisted : readCells ((k, w) :: cs) a = Memory.blank :=
        readCells_above (List.forall_mem_cons.mpr ⟨hlt, fun d hd => Nat.lt_trans hlt (hk d hd)⟩)
      rw [hunlisted, writeCells, if_pos hlt, consCell, if_pos rfl]
    · rw [readCells, if_pos rfl, writeCells, if_neg (Nat.lt_irrefl a), if_pos rfl, consCell, if_neg hw]
    · rw [readCells, if_neg hgt.ne', writeCells, if_neg hgt.asymm, if_neg hgt.ne', ih hrise hblank]

/-- A read finds the byte last written at its address (R42). -/
theorem Memory.read_write_same {m : Memory} (a : Nat) (v : Byte) (h : m.wf) : (m.write a v).read a = v := by
  rw [Memory.read_write a a v h, if_pos rfl]

/-- A write finds nothing to change where the same write went before, even past the last cell. -/
theorem Memory.write_write_same {m : Memory} (a : Nat) (v : Byte) (h : m.wf) :
    (m.write a v).write a v = m.write a v := by
  have hread : readCells (writeCells m.cells a v) a = v := Memory.read_write_same a v h
  obtain ⟨hrise, hcells⟩ := h
  have hblank : ∀ c ∈ writeCells m.cells a v, c.2 ≠ Memory.blank := by
    intro c hc
    rcases writeCells_mem hc with ⟨rfl, hv⟩ | hc
    · exact hv
    · exact (hcells c hc).2
  have hsame := writeCells_readCells a (writeCells_pairwise a v hrise) hblank
  rw [hread] at hsame
  exact congrArg Memory.mk hsame

/-- Settles O26: the read law at the address written and at another, and the idempotence of a write. -/
theorem memoryReadAfterWrite : Obligations.MemoryReadAfterWrite :=
  fun m a v h => ⟨Memory.read_write_same a v h, fun _ hb => m.read_write_other v hb,
    Memory.write_write_same a v h⟩

/-- Settles O28: the two answers of each access. -/
theorem memoryBoundsChecked : Obligations.MemoryBoundsChecked :=
  fun s _ v => ⟨fun h => ⟨s.memRead_inside h, s.memWrite_inside v h⟩,
    fun h => ⟨s.memRead_outside h, State.memWrite_eq_error.mpr ⟨h, rfl⟩⟩⟩

/-- Operands that fit in memory are fetched whole, and each is the byte its own cell holds (R82). -/
theorem State.fetchOperands_getElem? (s : State) {p n k : Nat} (hk : 1 ≤ k) (hkn : k ≤ n)
    (hfit : p + n < 256) :
    ∃ o, s.fetchOperands p n = .ok o ∧ o.length = n ∧ o[k - 1]? = some (s.mem.read (p + k)) := by
  refine ⟨_, s.fetchBytes_inside (p + 1) n (by omega), by simp, ?_⟩
  rw [List.getElem?_map, List.getElem?_range (by omega), show p + k = p + 1 + (k - 1) by omega]
  rfl

/-- Settles O29: both fetches read the cell, and the store left its byte there. One operand at `p` is
the first of one. -/
theorem fetchSeesStore : Obligations.FetchSeesStore := by
  intro s t a v hwf hstore
  obtain ⟨ha, rfl⟩ := State.memWrite_eq_ok.mp hstore
  have hread : (s.withMem (s.mem.write a v)).mem.read a = v := Memory.read_write_same a v hwf
  have hoperand : ∀ p n k, 1 ≤ k → k ≤ n → p + k = a → p + n < 256 →
      ∃ o, (s.withMem (s.mem.write a v)).fetchOperands p n = .ok o ∧ o.length = n ∧
        o[k - 1]? = some v := by
    rintro p n k hk hkn rfl hfit
    have h := (s.withMem (s.mem.write (p + k) v)).fetchOperands_getElem? hk hkn hfit
    rwa [hread] at h
  refine ⟨State.memRead_eq_ok.mpr ⟨ha, hread.symm⟩, fun p hp => ?_, hoperand⟩
  obtain ⟨o, ho, hlen, hfirst⟩ := hoperand p 1 1 le_rfl le_rfl hp (by omega)
  obtain ⟨b, rfl⟩ := List.length_eq_one_iff.mp hlen
  obtain rfl : b = v := by simpa using hfirst
  exact ho

end Sys2Proof.Machine
end

section
/-! The decoder and the encoder are inverse to each other: an instruction's opcode byte is bound to its
operation, and an operation rebuilds the instruction from as many operand bytes as its opcode counts. -/

namespace Sys2Proof

/-- The encoder and the decoder take every instruction apart and put it together the same way. -/
theorem encoded (i : Instr) : Laws.Encoded.Statement i := by
  cases i with
  | hlt => exact Laws.Encoded.hlt
  | ldi r v => exact Laws.Encoded.ldi r v
  | prn r => exact Laws.Encoded.prn r
  | add ra rb => exact Laws.Encoded.add ra rb
  | mul ra rb => exact Laws.Encoded.mul ra rb
  | push r => exact Laws.Encoded.push r
  | pop r => exact Laws.Encoded.pop r
  | call r => exact Laws.Encoded.call r
  | ret => exact Laws.Encoded.ret

/-- Settles O1: the opcode byte says how many of the bytes after it are the instruction's operands. -/
theorem decodeOfEncode : Obligations.DecodeOfEncode := by
  intro i rest
  obtain ⟨hop, hlen, hinstr⟩ := encoded i
  have hfits : ¬ (i.operandBytes ++ rest).length < i.operandBytes.length := by simp
  rw [encode, List.cons_append, decode_legal _ hop, ← hlen, if_neg hfits, List.take_left,
    List.drop_left, hinstr]

/-- The instruction an operation makes of as many bytes as it has operands is encoded by them. -/
theorem encode_instr {ins : Op} {o : List Byte} (h : o.length = operandCount ins.byte) :
    encode (ins.instr o) = ins.byte :: o := by
  rw [operandCount_byte] at h
  cases ins with
  | hlt | ret =>
    obtain rfl := List.length_eq_zero_iff.mp h
    rfl
  | prn | push | pop | call =>
    obtain ⟨a, rfl⟩ := List.length_eq_one_iff.mp h
    rfl
  | ldi | add | mul =>
    obtain ⟨a, b, rfl⟩ := List.length_eq_two.mp h
    rfl

/-- Everything decoding can answer: the first byte is an operation's, enough bytes follow it, and they
are the operands and the rest (R68). -/
theorem decode_eq_ok {bytes rest : List Byte} {i : Instr} (h : decode bytes = .ok (i, rest)) :
    ∃ (ins : Op) (o : List Byte), o.length = operandCount ins.byte ∧ i = ins.instr o ∧
      bytes = ins.byte :: (o ++ rest) := by
  cases bytes with
  | nil => cases h
  | cons op tail =>
    cases hop : boundOp op with
    | none =>
      rw [decode_illegal tail hop] at h
      cases h
    | some ins =>
      rw [decode_legal tail hop] at h
      split at h
      · cases h
      · rename_i hlen
        cases h
        obtain rfl := byte_of_boundOp hop
        exact ⟨ins, _, List.length_take_of_le (Nat.le_of_not_lt hlen), rfl,
          by rw [List.take_append_drop]⟩

/-- Settles O2: what decodes is an operation's byte, its operands and the rest. -/
theorem encodeOfDecode : Obligations.EncodeOfDecode := by
  intro bytes rest i h
  obtain ⟨ins, o, hlen, rfl, rfl⟩ := decode_eq_ok h
  rw [encode_instr hlen, List.cons_append]

/-- Settles O3: the length from the operand count, and the suppress flag instruction by instruction. -/
theorem opcodeBitsMatchInstruction : Obligations.OpcodeBitsMatchInstruction := by
  intro i
  obtain ⟨-, hlen, -⟩ := encoded i
  constructor
  · rw [encode, List.length_cons, hlen, decodeOpcode_n, Nat.add_comm]
  · rw [decodeOpcode_s, suppressFlag_byte]
    cases i <;> simp [Instr.op]

/-- Settles O4: each word is the encoding of its instruction. -/
theorem specWordsDecode : Obligations.SpecWordsDecode :=
  ⟨decodeOfEncode .hlt [], decodeOfEncode (.ldi 3 42) [], decodeOfEncode (.add 0 1) [],
    decodeOfEncode (.push 2) [], decodeOfEncode (.call 1) [], decodeOfEncode .ret []⟩

/-- No legal opcode has three operands (R65). -/
theorem operandCount_byte_le (ins : Op) : operandCount ins.byte ≤ 2 := by
  rw [operandCount_byte]
  cases ins <;> decide

/-- R65's nine opcodes. -/
def legalOpcodes : List Byte :=
  [0x01#8, 0x82#8, 0x47#8, 0xA0#8, 0xA2#8, 0x45#8, 0x46#8, 0x50#8, 0x11#8]

/-- A byte is illegal exactly if it is none of the nine: each of those is bound, and a bound byte is its
operation's. -/
theorem boundOp_eq_none_iff (op : Byte) : boundOp op = none ↔ op ∉ legalOpcodes := by
  have hbound : ∀ b ∈ legalOpcodes, boundOp b ≠ none := by decide
  constructor
  · exact fun hnone hmem => hbound op hmem hnone
  · refine fun hmem => Option.eq_none_iff_forall_ne_some.mpr fun ins hins => hmem ?_
    rw [byte_of_boundOp hins]
    cases ins <;> decide

/-- An opcode whose operand count is three is illegal (R66). -/
theorem boundOp_of_operandCount_three {op : Byte} (h : operandCount op = 3) : boundOp op = none := by
  refine Option.eq_none_iff_forall_ne_some.mpr fun ins hins => ?_
  have hle := operandCount_byte_le ins
  rw [← byte_of_boundOp hins, h] at hle
  omega

/-- R65's nine opcodes, as numbers. -/
def legalNumbers : Finset Nat := (legalOpcodes.map BitVec.toNat).toFinset

theorem boundOp_ofNat_eq_none_iff {n : Nat} (h : n < 256) :
    boundOp (BitVec.ofNat 8 n) = none ↔ n ∉ legalNumbers := by
  rw [boundOp_eq_none_iff]
  simp [legalNumbers, legalOpcodes, BitVec.toNat_eq, Nat.mod_eq_of_lt h]

/-- Of the 256 bytes all but the nine legal ones are illegal (R66). -/
theorem illegal_length :
    ((List.range 256).filter (fun n => boundOp (BitVec.ofNat 8 n) = none)).length = 247 := by
  have hset : ((List.range 256).filter (fun n => boundOp (BitVec.ofNat 8 n) = none)).toFinset =
      Finset.range 256 \ legalNumbers := by
    ext n
    simp only [List.mem_toFinset, List.mem_filter, List.mem_range, decide_eq_true_eq,
      Finset.mem_sdiff, Finset.mem_range]
    exact and_congr_right boundOp_ofNat_eq_none_iff
  have hlegal : legalNumbers ⊆ Finset.range 256 := by decide
  have hnine : legalNumbers.card = 9 := by decide
  rw [← List.toFinset_card_of_nodup (List.nodup_range.filter _), hset,
    Finset.card_sdiff_of_subset hlegal, Finset.card_range, hnine]

/-- Settles O5: all but nine of the 256 bytes are illegal, and an illegal opcode is the fetch's fault. -/
theorem illegalOpcodeFaults : Obligations.IllegalOpcodeFaults := by
  refine ⟨boundOp_eq_none_iff, illegal_length, by decide, fun _ => boundOp_of_operandCount_three, ?_⟩
  rintro s _ hrun hpc rfl hop
  rw [Machine.step_running hrun, Machine.runningStep_error (s.fetchInstr_illegal hpc hop)]

end Sys2Proof
end

section
/-! Program texts: a byte's literal is a line of eight digits that denote it, and a text of such lines
reads as the bytes. -/

namespace Sys2Proof.Machine

/-- A line of eight binary digits is the byte they denote (R216). -/
theorem parseLine_digits {ds : List Char} {v : Nat} (hlen : ds.length = 8)
    (hd : ∀ d ∈ ds, d = '0' ∨ d = '1') (hv : binaryValue 0 ds = some v) :
    parseLine ds = .byte (BitVec.ofNat 8 v) := by
  have hspace : ∀ d ∈ ds, d.isWhitespace = false := fun d hm => by
    rcases hd d hm with rfl | rfl <;> rfl
  have hcomment : '#' ∉ ds := fun hm => by simpa using hd _ hm
  cases ds with
  | nil => cases hlen
  | cons c cs =>
    have hstrip : stripSpaces (stripComment (c :: cs)) = c :: cs := by
      rw [stripComment_self hcomment]
      exact stripSpaces_self (hspace c (.head _)) (List.getLast?_eq_some_getLast (List.cons_ne_nil c cs))
        (hspace _ (List.getLast_mem _))
    rw [parseLine, hstrip]
    refine (if_pos (hd c (.head _))).trans ?_
    rw [hv]
    exact if_pos hlen

/-- A digit read doubles what stands before it and adds a bit. -/
theorem binaryValue_bit (acc : Nat) (b : Bool) (ds : List Char) :
    binaryValue acc ((if b then '1' else '0') :: ds) = binaryValue (2 * acc + b.toNat) ds := by
  cases b <;> rfl

/-- The low `w` bits of a number, written from the most significant on after digits worth `acc`. -/
theorem binaryValue_testBit (x w acc : Nat) :
    binaryValue acc ((List.range w).map fun k => if x.testBit (w - 1 - k) then '1' else '0') =
      some (acc * 2 ^ w + x % 2 ^ w) := by
  induction w generalizing acc with
  | zero => simp [binaryValue, Nat.mod_one]
  | succ w ih =>
    simp only [Nat.sub_sub, Nat.add_comm 1] at ih
    simp only [List.range_succ_eq_map, List.map_cons, List.map_map, Function.comp_def,
      Nat.add_sub_cancel, Nat.sub_zero, Nat.succ_eq_add_one, binaryValue_bit, ih]
    rw [Nat.mod_pow_succ, Nat.toNat_testBit]
    ring_nf

/-- A byte's literal denotes the byte. -/
theorem binaryValue_binaryLiteral (b : Byte) : binaryValue 0 (binaryLiteral b) = some b.toNat :=
  calc
    _ = some (0 * 2 ^ 8 + b.toNat % 2 ^ 8) := binaryValue_testBit b.toNat 8 0
    _ = some b.toNat := by rw [Nat.zero_mul, Nat.zero_add, Nat.mod_eq_of_lt b.isLt]

theorem binaryLiteral_digits {b : Byte} : ∀ d ∈ binaryLiteral b, d = '0' ∨ d = '1' := by
  intro d hd
  obtain ⟨k, -, rfl⟩ := List.mem_map.mp hd
  split
  · exact .inr rfl
  · exact .inl rfl

theorem newline_not_mem_binaryLiteral (b : Byte) : '\n' ∉ binaryLiteral b :=
  fun h => by simpa using binaryLiteral_digits _ h

/-- A byte's literal, as a line, is the byte. -/
@[simp] theorem parseLine_binaryLiteral (b : Byte) : parseLine (binaryLiteral b) = .byte b := by
  have hlen : (binaryLiteral b).length = 8 := by simp [binaryLiteral]
  rw [parseLine_digits hlen binaryLiteral_digits (binaryValue_binaryLiteral b), BitVec.ofNat_toNat,
    BitVec.setWidth_eq]

/-- A line ends at its first newline. -/
theorem splitLines_newline {line : List Char} (h : '\n' ∉ line) (text : List Char) :
    splitLines (line ++ '\n' :: text) = line :: splitLines text := by
  induction line with
  | nil => simp [splitLines]
  | cons c cs ih =>
    have hc : c ≠ '\n' := (List.ne_of_not_mem_cons h).symm
    rw [List.cons_append, splitLines, if_neg hc, ih (List.not_mem_of_not_mem_cons h)]

/-- The lines of a program's text, the empty one after the last newline left out, are its bytes. -/
theorem programText_lines (bytes : List Byte) :
    ((splitLines (programText bytes)).map parseLine).filter (· ≠ .ignored) = bytes.map .byte := by
  induction bytes with
  | nil => decide
  | cons b bs ih =>
    have htext : programText (b :: bs) = binaryLiteral b ++ '\n' :: programText bs := by
      simp [programText]
    rw [htext, splitLines_newline (newline_not_mem_binaryLiteral b), List.map_cons,
      parseLine_binaryLiteral, List.filter_cons_of_pos (by simp), ih, List.map_cons]

/-- A text of byte lines and ignored lines reads as the bytes, unless they are too many (R216, R217). -/
theorem readProgram_bytes {text : List Char} {bytes : List Byte}
    (h : ((splitLines text).map parseLine).filter (· ≠ .ignored) = bytes.map .byte) :
    readProgram (some text) = if bytes.length ≤ 256 then .ok bytes else .error .programLoadFailed := by
  rw [readProgram_of_collect, collectBytes_bytes h]

/-- A malformed line fails the program it stands in (R217). -/
theorem readProgram_malformed {text : List Char} (h : ∃ line ∈ splitLines text, parseLine line = .malformed) :
    readProgram (some text) = .error .programLoadFailed := by
  rw [readProgram_of_collect, collectBytes_malformed h]

theorem loadFile_ok (h : Session) {file : Option (List Char)} {bytes : List Byte}
    (hf : readProgram file = .ok bytes) : h.loadFile file = h.load bytes := by
  rw [Session.loadFile, hf]

theorem loadFile_error (h : Session) {file : Option (List Char)} {k : FaultKind}
    (hf : readProgram file = .error k) : h.loadFile file = .fault k := by
  rw [Session.loadFile, hf]

/-- No step raises the loader's own fault kind (R182). -/
theorem cause_kind_ne_programLoadFailed (c : Cause) : c.kind ≠ .programLoadFailed := by
  cases c <;> exact nofun

/-- Settles O23: a program's own text is a text of byte lines, so the two clauses about it are cases of
the one about such texts. -/
theorem loaderReadsProgramText : Obligations.LoaderReadsProgramText := by
  refine ⟨fun bytes hlen => ?_, fun bytes hlen => ?_, fun h _ _ hf => loadFile_ok h hf,
    fun h => loadFile_error h rfl, fun text hm => ?_, fun _ _ => readProgram_bytes,
    cause_kind_ne_programLoadFailed⟩
  · rw [readProgram_bytes (programText_lines bytes), if_pos hlen]
  · rw [readProgram_bytes (programText_lines bytes), if_neg (Nat.not_le_of_lt hlen)]
  · have hfails := readProgram_malformed hm
    exact ⟨hfails, fun h => loadFile_error h hfails⟩

end Sys2Proof.Machine
end

section
/-! What an instruction can raise. Each operation a handler is made of answers a value or raises a
cause; what a sequence of them can raise is what its parts can, and what an instruction records is what
its handler raised. -/

namespace Sys2Proof.Machine

/-- A computation answers a value with `post`, or raises a cause with `raised`. -/
def Answers {α : Type} (x : Except Cause α) (post : α → Prop) (raised : Cause → Prop) : Prop :=
  match x with
  | .ok a => post a
  | .error c => raised c

/-- What the handler of an instruction with register operands `os` can raise (R180): an index of 8 or
more only for one of them, and never an unsupported ALU operation or an illegal opcode. -/
inductive Raised (os : List Byte) : Cause → Prop where
  | register {o : Byte} : o ∈ os → 8 ≤ o.toNat → Raised os (.outOfBoundsRegister o)
  | unset (k : Fin 8) : Raised os (.uninitializedRegister k)
  | address (a : Nat) : Raised os (.outOfBoundsAddress a)
  | stack (v : Int) : Raised os (.stackExhausted v)

variable {os : List Byte} {s t : State} {o v : Byte}

theorem Answers.ok {α : Type} {a : α} {P : α → Prop} {E : Cause → Prop} (h : P a) :
    Answers (.ok a) P E := h

theorem Answers.bind {α β : Type} {x : Except Cause α} {f : α → Except Cause β} {P : α → Prop}
    {Q : β → Prop} {E : Cause → Prop} (hx : Answers x P E) (hf : ∀ a, P a → Answers (f a) Q E) :
    Answers (x >>= f) Q E := by
  cases x with
  | ok a => exact hf a hx
  | error c => exact hx

theorem Answers.of_cases {α : Type} {x : Except Cause α} {P : α → Prop} {E : Cause → Prop}
    (hok : ∀ a, x = .ok a → P a) (herror : ∀ c, x = .error c → E c) : Answers x P E := by
  cases x with
  | ok a => exact hok a rfl
  | error c => exact herror c rfl

theorem getReg_answers (s : State) (ho : o ∈ os) :
    Answers (s.getReg o) (fun _ => True) (Raised os) := by
  refine .of_cases (fun _ _ => trivial) fun c h => ?_
  rcases State.getReg_eq_error.mp h with ⟨h8, rfl⟩ | ⟨k, -, -, rfl⟩
  · exact .register ho h8
  · exact .unset k

theorem setReg_answers (v : Byte) (ho : o ∈ os) (hs : s.fault = none) :
    Answers (s.setReg o v) (·.fault = none) (Raised os) := by
  refine .of_cases (fun u h => ?_) fun c h => ?_
  · obtain ⟨k, -, rfl⟩ := State.setReg_eq_ok.mp h
    exact hs
  · obtain ⟨h8, rfl⟩ := State.setReg_eq_error.mp h
    exact .register ho h8

theorem getSp_answers (s : State) : Answers s.getSp (fun _ => True) (Raised os) := by
  refine .of_cases (fun _ _ => trivial) fun c h => ?_
  rw [State.getSp_eq] at h
  obtain ⟨-, rfl⟩ := slotValue_eq_error.mp h
  exact .unset 7

theorem setSp_answers (v : Byte) (hs : s.fault = none) :
    Answers (s.setSp v) (·.fault = none) (Raised os) := by
  rw [s.setSp_eq]
  exact hs

theorem memRead_answers (s : State) (a : Nat) : Answers (s.memRead a) (fun _ => True) (Raised os) := by
  refine .of_cases (fun _ _ => trivial) fun c h => ?_
  obtain ⟨-, rfl⟩ := State.memRead_eq_error.mp h
  exact .address a

theorem memWrite_answers (a : Nat) (v : Byte) (hs : s.fault = none) :
    Answers (s.memWrite a v) (·.fault = none) (Raised os) := by
  refine .of_cases (fun u h => ?_) fun c h => ?_
  · obtain ⟨-, rfl⟩ := State.memWrite_eq_ok.mp h
    exact hs
  · obtain ⟨-, rfl⟩ := State.memWrite_eq_error.mp h
    exact .address a

theorem checkSp_answers (v : Int) : Answers (checkSp v) (fun _ => True) (Raised os) := by
  refine .of_cases (fun _ _ => trivial) fun c h => ?_
  obtain ⟨-, rfl⟩ := checkSp_eq_error.mp h
  exact .stack v

theorem returnAddress_answers (p : Nat) : Answers (returnAddress p) (fun _ => True) (Raised os) := by
  unfold returnAddress
  split
  · exact .address _
  · trivial

/-- The ALU raises what its two register operands do, if the operation is one of the supported set. -/
theorem aluApply_answers {aop : AluOp} {ra rb : Byte} (ha : ra ∈ os) (hb : rb ∈ os)
    (hs : s.fault = none) (haop : ∀ x y, Answers (aluCompute aop x y) (fun _ => True) (Raised os)) :
    Answers (s.aluApply aop ra rb) (·.fault = none) (Raised os) :=
  (getReg_answers s ha).bind fun x _ => (getReg_answers s hb).bind fun y _ =>
    (haop x y).bind fun z _ => setReg_answers z ha hs

/-- A commit records the cause its handler raised, and no other. -/
theorem commit_recorded {op : Op} {x : Except Cause State} {E : Cause → Prop} {r : FaultRecord}
    (hx : Answers x (·.fault = none) E) (h : commit op s x = .next t) (hr : t.fault = some r) :
    E r.cause := by
  rcases commit_cases h with ⟨u, rfl, rfl⟩ | ⟨c, rfl, rfl⟩
  · have hnone : u.fault = none := hx
    rw [State.withPc_fault, hnone] at hr
    cases hr
  · cases hr
    exact hx

/-- From a state without a fault, an instruction records only what its handler can raise. -/
theorem exec_recorded {i : Instr} {r : FaultRecord} (hs : s.fault = none) (h : exec i s = .next t)
    (hr : t.fault = some r) : Raised i.regOperands r.cause := by
  cases i with
  | hlt =>
    cases h
    cases hs.symm.trans hr
  | ldi o x => exact commit_recorded (setReg_answers x (.head _) hs) h hr
  | prn o =>
    refine commit_recorded ?_ h hr
    exact (getReg_answers s (.head _)).bind fun x _ => .ok hs
  | add ra rb =>
    refine commit_recorded (aluApply_answers (.head _) (.tail _ (.head _)) hs fun x y => ?_) h hr
    rw [aluCompute_add]
    trivial
  | mul ra rb =>
    refine commit_recorded (aluApply_answers (.head _) (.tail _ (.head _)) hs fun x y => ?_) h hr
    rw [aluCompute_mul]
    trivial
  | push o =>
    refine commit_recorded ?_ h hr
    exact (getSp_answers s).bind fun sp _ => (checkSp_answers _).bind fun sp1 _ =>
      (setSp_answers sp1 hs).bind fun s1 hs1 => (getReg_answers s1 (.head _)).bind fun x _ =>
      memWrite_answers sp1.toNat x hs1
  | pop o =>
    refine commit_recorded ?_ h hr
    exact (getSp_answers s).bind fun sp _ => (memRead_answers s _).bind fun x _ =>
      (setReg_answers x (.head _) hs).bind fun s1 hs1 => (getSp_answers s1).bind fun sp1 _ =>
      (checkSp_answers _).bind fun sp2 _ => setSp_answers sp2 hs1
  | call o =>
    refine commit_recorded ?_ h hr
    exact (getSp_answers s).bind fun sp _ => (checkSp_answers _).bind fun sp1 _ =>
      (setSp_answers sp1 hs).bind fun s1 hs1 => (returnAddress_answers _).bind fun ra _ =>
      (memWrite_answers sp1.toNat ra hs1).bind fun s2 hs2 =>
      (getReg_answers s2 (.head _)).bind fun _ _ => .ok hs2
  | ret =>
    refine commit_recorded ?_ h hr
    exact (getSp_answers s).bind fun sp _ => (memRead_answers s _).bind fun x _ =>
      (checkSp_answers _).bind fun sp2 _ => setSp_answers sp2 hs

/-- Settles O34: the one register index of 8 or more an instruction can record is an operand of its own. -/
theorem wellFormedNamesRegisters : Obligations.WellFormedNamesRegisters := by
  rintro i s t hwf hs h ⟨c, p⟩ hr
  have hc : Raised i.regOperands c := exec_recorded hs h hr
  cases hc with
  | register ho h8 => exact absurd (hwf _ ho) (Nat.not_lt.mpr h8)
  | unset k => exact nofun
  | address a => exact nofun
  | stack v => exact nofun

end Sys2Proof.Machine
end

section
/-! The fetch unit and the step: which bytes a fetch answers, and when a step runs an instruction. -/

namespace Sys2Proof.Machine

/-- Settles O7: past the last cell the opcode fetch raises what the step then takes. -/
theorem opcodeFetchBounds : Obligations.OpcodeFetchBounds := by
  refine ⟨fun s p hp => s.memRead_inside hp, fun s p hp => s.memRead_outside hp, fun s hrun hpc => ?_⟩
  rw [step_running hrun, runningStep_error (s.fetchInstr_outside hpc)]

/-- Where not even the first byte lies inside memory, the fetch faults at that byte. -/
theorem State.fetchBytes_start_outside (s : State) {a n : Nat} (hn : 1 ≤ n) (ha : 256 ≤ a) :
    s.fetchBytes a n = .error (.outOfBoundsAddress a) := by
  obtain ⟨m, rfl⟩ := Nat.exists_eq_add_of_le' hn
  rw [State.fetchBytes, s.memRead_outside ha, error_bind]

/-- An instruction whose last operand byte lies past the last cell cannot be fetched (R82). -/
theorem State.fetchInstr_truncated (s : State) {ins : Op} (hpc : s.pc < 256)
    (hop : boundOp (s.mem.read s.pc) = some ins) (hn : 256 ≤ s.pc + operandCount (s.mem.read s.pc)) :
    s.fetchInstr = .error (.outOfBoundsAddress 256) := by
  rw [s.fetchInstr_legal hpc hop, State.fetchOperands, s.fetchBytes_outside _ _ hpc (by omega), error_bind]

/-- Settles O8: the first operand past the last cell is the first operand of all, or stands at 256. -/
theorem operandFetchBounds : Obligations.OperandFetchBounds := by
  refine ⟨fun s p n hfit => s.fetchBytes_inside (p + 1) n (by omega), fun s p n k hk hkn hout hin => ?_,
    fun s ins hrun hpc hop hn => ?_⟩
  · rcases Nat.eq_or_lt_of_le hk with rfl | hk1
    · exact s.fetchBytes_start_outside hkn hout
    · have hprev : p + (k - 1) < 256 := hin (k - 1) (by omega) (by omega)
      have hedge : p + k = 256 := by omega
      rw [hedge]
      exact s.fetchBytes_outside (p + 1) n (by omega) (by omega)
  · rw [step_running hrun, runningStep_error (s.fetchInstr_truncated hpc hop hn)]

/-- A window that is not empty begins with the byte at its address, and that address is inside memory. -/
theorem Memory.window_eq_cons {m : Memory} {a n : Nat} {b : Byte} {bs : List Byte}
    (h : m.window a (n + 1) = b :: bs) : a < 256 ∧ m.read a = b ∧ m.window (a + 1) n = bs := by
  rw [Memory.window] at h
  split at h
  · rename_i ha
    obtain ⟨hb, hbs⟩ := List.cons.inj h
    exact ⟨ha, hb, hbs⟩
  · cases h

/-- Operand bytes that begin the window after the pc are the ones fetched. -/
theorem State.fetchOperands_window (s : State) {p k : Nat} {o rest : List Byte} (hk : o.length ≤ k)
    (h : s.mem.window (p + 1) k = o ++ rest) : s.fetchOperands p o.length = .ok o := by
  have hwindow : s.mem.window (p + 1) o.length = o := by
    rw [← s.mem.window_take _ _ (k - o.length), Nat.add_sub_cancel' hk, h, List.take_left]
  have hfetch := s.fetchBytes_window (p + 1) o.length (by rw [hwindow])
  rwa [hwindow] at hfetch

/-- What the bytes at the pc decode to is the instruction fetched there (R88). -/
theorem State.fetchInstr_of_decode {s : State} {i : Instr} {rest : List Byte}
    (h : decode (s.mem.window s.pc maxInstrBytes) = .ok (i, rest)) : s.fetchInstr = .ok i := by
  obtain ⟨ins, o, hlen, rfl, hbytes⟩ := decode_eq_ok h
  obtain ⟨hpc, hread, htail⟩ := Memory.window_eq_cons hbytes
  have hop : boundOp (s.mem.read s.pc) = some ins := hread ▸ boundOp_byte ins
  have hfit : o.length ≤ 2 := hlen ▸ operandCount_byte_le ins
  rw [s.fetchInstr_legal hpc hop, hread, ← hlen, s.fetchOperands_window hfit htail, ok_bind]

/-- Settles O6: the fetch reads the same bytes the decoder is given. -/
theorem stepRunsDecodedInstruction : Obligations.StepRunsDecodedInstruction := by
  intro s i rest hrun h
  rw [step_running hrun, runningStep_ok (State.fetchInstr_of_decode h)]

/-- A step in Running answers a next state, whether or not it finds an instruction. -/
theorem runningStep_next (s : State) : ∃ t, s.runningStep = .next t := by
  cases hf : s.fetchInstr with
  | ok i => exact runningStep_ok hf ▸ exec_next i s
  | error c => exact ⟨_, runningStep_error hf⟩

/-- Settles O9: only Running has a step, and there neither a fetch nor an instruction is refused. -/
theorem stepExactlyInRunning : Obligations.StepExactlyInRunning := by
  refine fun s => ⟨fun ⟨t, h⟩ => (step_cases h).1, fun hrun => ?_⟩
  rw [step_running hrun]
  exact runningStep_next s

theorem step_halted {s : State} (h : s.status = .halted) : step s = .fault .hasHalted := by
  rw [step, h, State.haltedStep]

/-- Settles O37: HLT leaves Halted, which has no step. -/
theorem noFetchAfterHlt : Obligations.NoFetchAfterHlt :=
  fun s => ⟨_, execHlt_eq s, step_halted rfl⟩

/-- Every instruction commits what its handler computed. -/
theorem exec_eq_commit (i : Instr) (s : State) : ∃ x, exec i s = commit i.op s x := by
  cases i with
  | hlt => exact ⟨.ok { s.emit .shutdown with status := .halted }, rfl⟩
  | _ => exact ⟨_, rfl⟩

/-- An instruction that leaves Faulted a machine that was not Faulted leaves the pc (R85, R184). -/
theorem exec_pc_faulted {i : Instr} {s t : State} (hs : s.status ≠ .faulted) (h : exec i s = .next t)
    (ht : t.status = .faulted) : t.pc = s.pc := by
  rcases exec_cases h with ⟨-, rfl⟩ | ⟨-, he, -⟩ | ⟨-, c, rfl⟩
  · cases ht
  · exact absurd (he.status.symm.trans ht) hs
  · rfl

/-- An instruction that does not set the pc itself advances it past its bytes (R85). -/
theorem exec_pc_advance {i : Instr} {s t : State} (h : exec i s = .next t) (ht : t.status ≠ .faulted)
    (hflag : (decodeOpcode i.op.byte).s = false) : t.pc = s.pc + 1 + (decodeOpcode i.op.byte).n := by
  obtain ⟨x, hx⟩ := exec_eq_commit i s
  rcases commit_cases (hx ▸ h) with ⟨u, -, rfl⟩ | ⟨c, -, rfl⟩
  · rw [State.withPc_pc, hflag, nextPc_advance]
  · exact absurd rfl ht

/-- Settles O14: the commit's advance, and the pc the two suppressing handlers write. -/
theorem nextPcRule : Obligations.NextPcRule := by
  refine fun i s t hs h => ⟨exec_pc_faulted hs h, exec_pc_advance h, ?_, ?_⟩
  · rintro ht r rfl
    rcases execCall_cases h with ⟨k, -, sp1, x, -, -, -, hk, hx, rfl⟩ | ⟨c, rfl⟩
    · exact ⟨k, x, hk, hx, rfl⟩
    · exact absurd rfl ht
  · rintro ht rfl
    rcases execRet_cases h with ⟨sp, sp2, hsp, -, rfl⟩ | ⟨c, rfl⟩
    · exact ⟨sp, hsp, rfl⟩
    · exact absurd rfl ht

end Sys2Proof.Machine
end

section
/-! The run loop: it follows the steps, and what it returns is the result of the state they end in. -/

namespace Sys2Proof.Machine

/-- Everything the result of a state can be (R215, R218). -/
theorem State.result_eq_some {s : State} {r : RunResult} (h : s.result = some r) :
    (s.status = .halted ∧ r = .halted s.mem s.regs s.pc s.out) ∨
    (s.status = .faulted ∧ ∃ f, s.fault = some f ∧ r = .faulted f s.mem s.regs s.pc s.out) := by
  unfold State.result at h
  split at h
  · rename_i hs
    exact .inl ⟨hs, (Option.some.inj h).symm⟩
  · rename_i f hs hf
    exact .inr ⟨hs, f, hf, (Option.some.inj h).symm⟩
  · cases h

theorem State.result_halted {s : State} (h : s.status = .halted) :
    s.result = some (.halted s.mem s.regs s.pc s.out) := by
  rw [State.result, h]

theorem State.result_faulted {s : State} {f : FaultRecord} (h : s.status = .faulted)
    (hf : s.fault = some f) : s.result = some (.faulted f s.mem s.regs s.pc s.out) := by
  rw [State.result, h, hf]

theorem State.runLoop_next {s t : State} (h : step s = .next t) (fuel : Nat) :
    s.runLoop (fuel + 1) = t.runLoop fuel := by
  rw [State.runLoop, h]

/-- A step before a run is part of the run. -/
theorem Reaches.head {s t u : State} (h : step s = .next t) (hr : Reaches t u) : Reaches s u := by
  induction hr with
  | refl => exact .tail .refl h
  | tail _ hstep ih => exact .tail ih hstep

/-- What the loop returns is the result of a state the run reaches. -/
theorem runLoop_sound {fuel : Nat} {s : State} {r : RunResult} (h : s.runLoop fuel = some r) :
    ∃ t, Reaches s t ∧ t.result = some r := by
  induction fuel generalizing s with
  | zero => exact ⟨s, .refl, h⟩
  | succ fuel ih =>
    rw [State.runLoop] at h
    split at h
    · rename_i u hstep
      obtain ⟨t, hr, ht⟩ := ih h
      exact ⟨t, hr.head hstep, ht⟩
    · exact ⟨s, .refl, h⟩
    · cases h

/-- With some fuel spent, the loop stands at any state the run reaches. -/
theorem runLoop_reaches {s t : State} (h : Reaches s t) :
    ∃ spent, ∀ fuel, s.runLoop (spent + fuel) = t.runLoop fuel := by
  induction h with
  | refl => exact ⟨0, fun fuel => by rw [Nat.zero_add]⟩
  | tail _ hstep ih =>
    obtain ⟨spent, hspent⟩ := ih
    refine ⟨spent + 1, fun fuel => ?_⟩
    rw [Nat.add_assoc, Nat.add_comm 1, hspent, State.runLoop_next hstep]

/-- The loop returns the result of any state the run reaches, with the fuel that ends there. -/
theorem runLoop_complete {s t : State} (h : Reaches s t) : ∃ fuel, s.runLoop fuel = t.result := by
  obtain ⟨spent, hspent⟩ := runLoop_reaches h
  exact ⟨spent, hspent 0⟩

/-- Settles O21: soundness and completeness of the loop, and the contents of the two results. -/
theorem runLoopReturnsTheEnd : Obligations.RunLoopReturnsTheEnd := by
  refine ⟨fun fuel s r h => ?_, fun s t hr _ => runLoop_complete hr, fun s t hr ht => ?_,
    fun s t r hr ht hf => ?_⟩
  · obtain ⟨t, hr, ht⟩ := runLoop_sound h
    have hres := State.result_eq_some ht
    exact ⟨t, hr, hres.imp And.left And.left, ht, hres⟩
  · exact State.result_halted ht ▸ runLoop_complete hr
  · exact State.result_faulted ht hf ▸ runLoop_complete hr

end Sys2Proof.Machine
end

section
/-! The decoder's outputs as numbers (R83, R84). -/

namespace Sys2Proof

theorem operandCount_eq_div (op : Byte) : operandCount op = op.toNat / 64 := by
  have hlt : op.toNat < 256 := op.isLt
  rw [operandCount, BitVec.extractLsb'_toNat, Nat.shiftRight_eq_div_pow]
  exact Nat.mod_eq_of_lt (by omega)

theorem suppressFlag_eq_true_iff (op : Byte) : suppressFlag op = true ↔ op.toNat / 16 % 2 = 1 := by
  rw [suppressFlag, BitVec.getLsbD, Nat.testBit_eq_decide_div_mod_eq, decide_eq_true_eq]

/-- An opcode is bound to an operation exactly if it is the operation's byte (R69). -/
theorem boundOp_eq_some_iff (op : Byte) (ins : Op) : boundOp op = some ins ↔ op = ins.byte :=
  ⟨byte_of_boundOp, fun h => h ▸ boundOp_byte ins⟩

/-- Only ADD's and MUL's bytes ask the ALU for an operation (R83). -/
theorem boundOp_aluOp (op : Byte) : (boundOp op).bind Op.aluOp =
    if op = 0xA0#8 then some .add else if op = 0xA2#8 then some .mul else none := by
  cases hop : boundOp op with
  | none =>
    have hne : ∀ ins : Op, op ≠ ins.byte := fun ins h => by
      rw [(boundOp_eq_some_iff op ins).mpr h] at hop
      cases hop
    exact ((if_neg (hne .add)).trans (if_neg (hne .mul))).symm
  | some ins =>
    rw [byte_of_boundOp hop]
    cases ins <;> rfl

/-- Settles O55: the two bit fields as quotients, the opcode map both ways, and the ALU's operation. -/
theorem decoderOutputs : Obligations.DecoderOutputs := by
  intro op
  simp only [decodeOpcode_n, decodeOpcode_s, decodeOpcode_ins, decodeOpcode_aluOp]
  exact ⟨operandCount_eq_div op, suppressFlag_eq_true_iff op, boundOp_eq_some_iff op, boundOp_aluOp op⟩

end Sys2Proof
end

section
/-! What the machine reports, its status, output and fault record, no fetch and no handler reads. Every
handler but HLT's and PRN's does the same whatever the report holds, and hands it on; HLT and PRN append
one event. -/

namespace Sys2Proof.Machine

variable {s t : State} {o : List Event} {f : Option FaultRecord} {op : Op}

/-- The state with its report replaced: status, output and fault record. -/
def State.withReport (s : State) (st : Status) (o : List Event) (f : Option FaultRecord) : State :=
  { s with status := st, out := o, fault := f }

/-! ## Operations that neither read nor write the report -/

/-- The computation does the same whatever the report holds, and hands it on. -/
def ReportBlind (x : State → Except Cause State) : Prop :=
  ∀ s st o f, x (s.withReport st o f) = (x s).map (·.withReport st o f)

/-- What a blind computation answers holds the status and the output it began with. -/
theorem ReportBlind.frame {x : State → Except Cause State} (hx : ReportBlind x) {u : State} (h : x s = .ok u) :
    u.status = s.status ∧ u.out = s.out := by
  have hself : x s = (x s).map (·.withReport s.status s.out s.fault) := hx s s.status s.out s.fault
  rw [h] at hself
  have hu : u = u.withReport s.status s.out s.fault := Except.ok.inj hself
  exact ⟨by rw [hu]; rfl, by rw [hu]; rfl⟩

section Operations

variable (s : State) (st : Status) (o : List Event) (f : Option FaultRecord)

theorem State.getReg_withReport (r : Byte) : (s.withReport st o f).getReg r = s.getReg r := rfl

theorem State.getSp_withReport : (s.withReport st o f).getSp = s.getSp := rfl

theorem State.memRead_withReport (a : Nat) : (s.withReport st o f).memRead a = s.memRead a := rfl

theorem State.withSlot_withReport (k : Fin 8) (v : Byte) :
    (s.withReport st o f).withSlot k v = (s.withSlot k v).withReport st o f := rfl

theorem State.withPc_withReport (p : Nat) :
    (s.withReport st o f).withPc p = (s.withPc p).withReport st o f := rfl

theorem State.setReg_withReport (r v : Byte) :
    (s.withReport st o f).setReg r v = (s.setReg r v).map (·.withReport st o f) := by
  rw [State.setReg, State.setReg, map_bind]
  rfl

theorem State.memWrite_withReport (a : Nat) (v : Byte) :
    (s.withReport st o f).memWrite a v = (s.memWrite a v).map (·.withReport st o f) := by
  simp only [State.memWrite]
  split <;> rfl

theorem State.aluApply_withReport (aop : AluOp) (ra rb : Byte) :
    (s.withReport st o f).aluApply aop ra rb = (s.aluApply aop ra rb).map (·.withReport st o f) := by
  simp only [State.aluApply, map_bind, State.getReg_withReport, State.setReg_withReport]

/-- The fetch unit only reads memory (R80). -/
theorem State.fetchBytes_withReport (a n : Nat) : (s.withReport st o f).fetchBytes a n = s.fetchBytes a n := by
  induction n generalizing a with
  | zero => rfl
  | succ n ih => rw [State.fetchBytes, State.fetchBytes, State.memRead_withReport, ih]

theorem State.fetchInstr_withReport : (s.withReport st o f).fetchInstr = s.fetchInstr := by
  simp only [State.fetchInstr, State.fetchOpcode, State.fetchOperands, State.memRead_withReport,
    State.fetchBytes_withReport]
  rfl

end Operations

/-- Every handler but HLT's and PRN's is blind: its operations are. -/
theorem exec_reportBlind (i : Instr) : i = .hlt ∨ (∃ r, i = .prn r) ∨
    ∃ x, ReportBlind x ∧ ∀ s, exec i s = commit i.op s (x s) := by
  cases i with
  | hlt => exact .inl rfl
  | prn r => exact .inr (.inl ⟨r, rfl⟩)
  | ldi r v => exact .inr (.inr ⟨_, fun s st o f => s.setReg_withReport st o f r v, fun _ => rfl⟩)
  | add ra rb => exact .inr (.inr ⟨_, fun s st o f => s.aluApply_withReport st o f .add ra rb, fun _ => rfl⟩)
  | mul ra rb => exact .inr (.inr ⟨_, fun s st o f => s.aluApply_withReport st o f .mul ra rb, fun _ => rfl⟩)
  | push r =>
    refine .inr (.inr ⟨_, fun s st o f => ?_, fun _ => rfl⟩)
    simp only [map_bind, ok_bind, State.getSp_withReport, State.setSp_eq, State.withSlot_withReport,
      State.getReg_withReport, State.memWrite_withReport]
  | pop r =>
    refine .inr (.inr ⟨_, fun s st o f => ?_, fun _ => rfl⟩)
    simp only [map_bind, bind_map, State.getSp_withReport, State.memRead_withReport, State.setReg_withReport,
      State.setSp_eq, State.withSlot_withReport]
    rfl
  | call r =>
    refine .inr (.inr ⟨_, fun s st o f => ?_, fun _ => rfl⟩)
    simp only [map_bind, bind_map, ok_bind, State.getSp_withReport, State.setSp_eq, State.withSlot_withReport,
      State.getReg_withReport, State.memWrite_withReport]
    rfl
  | ret =>
    refine .inr (.inr ⟨_, fun s st o f => ?_, fun _ => rfl⟩)
    simp only [map_bind, State.getSp_withReport, State.memRead_withReport, State.setSp_eq,
      State.withPc_withReport, State.withSlot_withReport]
    rfl

/-! ## The step -/

/-- `r` is what a step from `s` to `t` gives where the output is `o` and the fault record `f`: the
events the step appended are appended to `o`, and `f` stands unless the step faulted. -/
def StepsAlike (s t : State) (o : List Event) (f : Option FaultRecord)
    (r : Host.Outcome State Fault Refusal) : Prop :=
  ∃ es : List Event, t.out = s.out ++ es ∧
    r = .next { t with out := o ++ es, fault := if t.status = .faulted then t.fault else f }

/-- The fault entry writes its record over any other, and emits nothing (R184). -/
theorem takeFault_stepsAlike (s : State) (o : List Event) (f : Option FaultRecord) (c : Cause) :
    StepsAlike s (s.takeFault c) o f (.next ((s.withReport s.status o f).takeFault c)) :=
  ⟨[], by simp, by simp [State.withReport, State.takeFault]⟩

/-- A commit that does not fault hands on the output and the record its handler computed. -/
theorem commit_ok_stepsAlike {u : State} {es : List Event} (hout : u.out = s.out ++ es)
    (hu : u.status ≠ .faulted) (h : commit op s (.ok u) = .next t) :
    StepsAlike s t o f
      (commit op (s.withReport s.status o f) (.ok (u.withReport u.status (o ++ es) f))) := by
  cases h
  refine ⟨es, hout, ?_⟩
  rw [State.withPc_status, if_neg hu]
  rfl

theorem ReportBlind.stepsAlike {x : State → Except Cause State} (hx : ReportBlind x)
    (hs : s.status ≠ .faulted) (h : commit op s (x s) = .next t) :
    StepsAlike s t o f (commit op (s.withReport s.status o f) (x (s.withReport s.status o f))) := by
  rw [hx]
  cases hxs : x s with
  | error c =>
    rw [hxs] at h
    cases h
    exact takeFault_stepsAlike s o f c
  | ok u =>
    obtain ⟨hstatus, hout⟩ := hx.frame hxs
    rw [hxs] at h
    have hsame := commit_ok_stepsAlike (o := o) (f := f) (es := []) (by rw [hout, List.append_nil])
      (hstatus ▸ hs) h
    rwa [List.append_nil, hstatus] at hsame

theorem execPrn_stepsAlike {r : Byte} (hs : s.status ≠ .faulted) (h : execPrn r s = .next t) :
    StepsAlike s t o f (execPrn r (s.withReport s.status o f)) := by
  rw [execPrn] at h ⊢
  rw [State.getReg_withReport]
  cases hv : s.getReg r with
  | error c =>
    rw [hv] at h
    cases h
    exact takeFault_stepsAlike s o f c
  | ok v =>
    rw [hv] at h
    exact commit_ok_stepsAlike (u := s.emit (.num v)) rfl hs h

/-- No instruction reads the output or the fault record (R93). -/
theorem exec_stepsAlike {i : Instr} (hs : s.status ≠ .faulted) (h : exec i s = .next t) :
    StepsAlike s t o f (exec i (s.withReport s.status o f)) := by
  rcases exec_reportBlind i with rfl | ⟨r, rfl⟩ | ⟨x, hx, hexec⟩
  · cases h
    exact ⟨[.shutdown], rfl, rfl⟩
  · exact execPrn_stepsAlike hs h
  · rw [hexec] at h ⊢
    exact hx.stepsAlike hs h

/-- Settles O13: the fetch and every handler read neither, and the fault entry overwrites the record. -/
theorem stepIgnoresOutput : Obligations.StepIgnoresOutput := by
  intro s t o f h
  change StepsAlike s t o f (step (s.withReport s.status o f))
  obtain ⟨hrun, hcases⟩ := step_cases h
  rw [step_running (s := s.withReport s.status o f) hrun]
  rcases hcases with ⟨i, hf, hi⟩ | ⟨c, hf, rfl⟩
  · rw [runningStep_ok ((s.fetchInstr_withReport _ o f).trans hf)]
    exact exec_stepsAlike (hrun ▸ nofun) hi
  · rw [runningStep_error ((s.fetchInstr_withReport _ o f).trans hf)]
    exact takeFault_stepsAlike s o f c

end Sys2Proof.Machine
end

section
/-! HLT, LDI and PRN (41_halt_and_data.md): the effect of each handler where it succeeds and the fault
where it does not, and the fetch that does not get all of an instruction's bytes. -/

namespace Sys2Proof.Machine

variable {s : State} {r v : Byte}

/-! ## An instruction at the pc -/

/-- A step that finds an operation's opcode byte at the pc and not all of its operands inside memory
(R82). -/
theorem step_truncated {ins : Op} {n : Nat} (hn : operandCount ins.byte = n)
    (hrun : s.status = .running) (hpc : s.pc < 256) (hop : s.mem.read s.pc = ins.byte)
    (hend : 256 ≤ s.pc + n) :
    step s = .next (s.takeFault (.outOfBoundsAddress 256)) := by
  have hfetch := s.fetchInstr_truncated hpc ((boundOp_eq_some_iff _ ins).mpr hop) (by rwa [hop, hn])
  rw [step_running hrun, runningStep_error hfetch]

/-- HLT has no operands, so it is fetched wherever its opcode byte stands (R81). -/
theorem fetchInstr_hlt (hpc : s.pc < 256) (hop : s.mem.read s.pc = Op.hlt.byte) :
    s.fetchInstr = .ok .hlt := by
  rw [s.fetchInstr_legal hpc ((boundOp_eq_some_iff _ .hlt).mpr hop), hop]
  rfl

/-- Settles O36: HLT's handler cannot raise, and its one byte is always fetched. -/
theorem hltRule : Obligations.HltRule := by
  refine ⟨decodeOfEncode .hlt [], execHlt_eq, fun s hrun hpc hop => ?_⟩
  rw [step_running hrun, runningStep_ok (fetchInstr_hlt hpc hop)]

/-! ## LDI and PRN -/

theorem execLdi_outside (s : State) (v : Byte) (h : 8 ≤ r.toNat) :
    execLdi r v s = .next (s.takeFault (.outOfBoundsRegister r)) := by
  rw [execLdi, State.setReg_outside _ _ h, commit_error]

theorem execLdi_inside (s : State) (v : Byte) (h : r.toNat < 8) :
    execLdi r v s = .next ((s.withSlot ⟨r.toNat, h⟩ v).withPc (s.pc + 3)) := by
  rw [execLdi, State.setReg_inside _ _ h]
  rfl

/-- Settles O38: LDI's one check is the register index, and its three bytes need the pc below 254. -/
theorem ldiRule : Obligations.LdiRule := by
  refine ⟨fun r i => decodeOfEncode (.ldi r i) [], ⟨operandCount_byte .ldi, suppressFlag_byte .ldi⟩,
    fun s r i => execLdi_outside s i, fun s r i => execLdi_inside s i, fun s hrun hpc hop hend => ?_⟩
  exact step_truncated (n := 2) (operandCount_byte .ldi) hrun hpc hop (by omega)

theorem execPrn_error {c : Cause} (h : s.getReg r = .error c) : execPrn r s = .next (s.takeFault c) := by
  rw [execPrn, h, error_bind, commit_error]

theorem execPrn_ok (h : s.getReg r = .ok v) : execPrn r s = .next ((s.emit (.num v)).withPc (s.pc + 2)) := by
  rw [execPrn, h]
  rfl

/-- Settles O40: PRN does what its one register read answers, a fault or a byte to emit. -/
theorem prnRule : Obligations.PrnRule := by
  refine ⟨fun r => decodeOfEncode (.prn r) [], fun s r h => execPrn_error (s.getReg_outside h),
    fun s r h hunset => execPrn_error ?_, fun s r v h hv => execPrn_ok ?_, fun s hrun hpc hop => ?_⟩
  · rw [s.getReg_inside h, hunset, slotValue_none]
  · rw [s.getReg_inside h, hv, slotValue_some]
  · exact step_truncated (n := 1) (operandCount_byte .prn) hrun (by omega) hop (by omega)

/-- Settles O41: HLT and PRN write the output and the pc, and HLT the status, unless PRN faults. -/
theorem hltPrnFrame : Obligations.HltPrnFrame := by
  rintro i s t (rfl | ⟨r, rfl⟩) h
  · cases h
    exact ⟨fun _ => rfl, fun _ => rfl, .inr ⟨_, rfl⟩, fun hne => absurd rfl hne, fun _ => rfl⟩
  · rcases execPrn_cases h with ⟨-, x, -, -, rfl⟩ | ⟨c, rfl⟩
    · exact ⟨fun _ => rfl, fun _ => rfl, .inr ⟨.num x, rfl⟩, fun _ => .inl ⟨rfl, rfl⟩, nofun⟩
    · exact ⟨fun _ => rfl, fun _ => rfl, .inl rfl, fun _ => .inr ⟨c, rfl⟩, nofun⟩

end Sys2Proof.Machine
end

section
/-! The instructions that use the stack (R141, R142, R160, R162), from a state whose SP is known: where
SP can move they take effect, and where it cannot they fault. With them, the stack after LDI R7 (R103). -/

namespace Sys2Proof.Machine

variable {s : State} {k : Fin 8} {r sp x : Byte}

/-- Where SP is not 0, the address below it as a byte and as a number are the same. -/
theorem toNat_pred (h : sp ≠ 0) : (sp - 1).toNat = sp.toNat - 1 := by
  have hsp : (sp.toNat - 1 : Int) = (sp - 1).toNat := checkSp_eq_ok.mp (checkSp_pred h)
  omega

/-- The operand byte that names slot `k` is `k`. -/
theorem toNat_slotOperand (k : Fin 8) : (BitVec.ofNat 8 k.val).toNat = k.val :=
  regIndex_eq_ok.mp (regIndex_slot k)

theorem execPush_exhausted (r : Byte) (hsp : s.slot 7 = some 0) :
    execPush r s = .next (s.takeFault (.stackExhausted (-1))) := by
  rw [execPush, State.getSp_eq_ok.mpr hsp]
  rfl

theorem execCall_exhausted (r : Byte) (hsp : s.slot 7 = some 0) :
    execCall r s = .next (s.takeFault (.stackExhausted (-1))) := by
  rw [execCall, State.getSp_eq_ok.mpr hsp]
  rfl

theorem execRet_exhausted (hsp : s.slot 7 = some 255) :
    execRet s = .next (s.takeFault (.stackExhausted 256)) := by
  rw [execRet, State.getSp_eq_ok.mpr hsp, ok_bind, State.memRead_byte]
  rfl

/-- PUSH stores what its operand's slot holds once SP has moved (R141, D23). -/
theorem execPush_ok (hsp : s.slot 7 = some sp) (h0 : sp ≠ 0) (hr : r.toNat = k.val)
    (hx : (s.withSlot 7 (sp - 1)).slot k = some x) : execPush r s = .next
      (((s.withSlot 7 (sp - 1)).withMem (s.mem.write (sp.toNat - 1) x)).withPc (s.pc + 2)) := by
  have hread : (s.withSlot 7 (sp - 1)).getReg r = .ok x := State.getReg_eq_ok.mpr ⟨k, hr, hx⟩
  rw [execPush, State.getSp_eq_ok.mpr hsp, ok_bind, checkSp_pred h0, ok_bind, State.setSp_eq, ok_bind,
    hread, ok_bind, State.memWrite_byte, toNat_pred h0]
  rfl

/-- CALL stores its return address and jumps to what its operand's slot holds once SP has moved (R160,
D23). -/
theorem execCall_ok (hsp : s.slot 7 = some sp) (h0 : sp ≠ 0) (hpc : s.pc + 2 < 256)
    (hr : r.toNat = k.val) (hx : (s.withSlot 7 (sp - 1)).slot k = some x) : execCall r s = .next
      (((s.withSlot 7 (sp - 1)).withMem
        (s.mem.write (sp.toNat - 1) (BitVec.ofNat 8 (s.pc + 2)))).withPc x.toNat) := by
  have hread : (s.withSlot 7 (sp - 1)).getReg r = .ok x := State.getReg_eq_ok.mpr ⟨k, hr, hx⟩
  rw [execCall, State.getSp_eq_ok.mpr hsp, ok_bind, checkSp_pred h0, ok_bind, State.setSp_eq, ok_bind,
    returnAddress_eq_ok.mpr ⟨hpc, rfl⟩, ok_bind, State.memWrite_byte, ok_bind, State.getReg_withMem,
    hread, toNat_pred h0]
  rfl

/-- POP moves SP up from where it stands once its operand's slot is written (R142, D23). -/
theorem execPop_ok {sp1 : Byte} (hsp : s.slot 7 = some sp) (hr : r.toNat = k.val)
    (hsp1 : (s.withSlot k (s.mem.read sp.toNat)).slot 7 = some sp1) (h255 : sp1 ≠ 255) :
    execPop r s = .next
      (((s.withSlot k (s.mem.read sp.toNat)).withSlot 7 (sp1 + 1)).withPc (s.pc + 2)) := by
  rw [execPop, State.getSp_eq_ok.mpr hsp, ok_bind, State.memRead_byte, ok_bind,
    State.setReg_eq_ok.mpr ⟨k, hr, rfl⟩, ok_bind, State.getSp_eq_ok.mpr hsp1, ok_bind,
    checkSp_succ h255, ok_bind, State.setSp_eq]
  rfl

theorem execRet_ok (hsp : s.slot 7 = some sp) (h255 : sp ≠ 255) :
    execRet s = .next ((s.withSlot 7 (sp + 1)).withPc (s.mem.read sp.toNat).toNat) := by
  rw [execRet, State.getSp_eq_ok.mpr hsp, ok_bind, State.memRead_byte, ok_bind,
    checkSp_succ h255, ok_bind, State.setSp_eq]
  rfl

/-- Settles O39: LDI R7 leaves SP at its byte, and the stack instructions start from that SP. -/
theorem ldiMovesTheStack : Obligations.LdiMovesTheStack := by
  intro s v
  obtain ⟨t, hldi, hsp, hstatus⟩ :
      ∃ t, exec (.ldi 7 v) s = .next t ∧ t.slot 7 = some v ∧ t.status = s.status :=
    ⟨_, execLdi_inside s v (r := 7) (by decide), s.slot_withSlot_same 7 v, rfl⟩
  refine ⟨t, hldi, hsp, hstatus, ?_, ?_, ?_, ?_⟩
  · rintro rfl r
    exact ⟨execPush_exhausted r hsp, execCall_exhausted r hsp⟩
  · intro r w h0 h7 hw hpc
    have hread : (t.withSlot 7 (v - 1)).slot r = some w :=
      (State.slot_withSlot_other _ _ _ _ h7).trans hw
    exact ⟨⟨_, execPush_ok hsp h0 (toNat_slotOperand r) hread, rfl⟩,
      ⟨_, execCall_ok hsp h0 hpc (toNat_slotOperand r) hread, rfl⟩⟩
  · intro r hv h7
    have h255 : v ≠ 255 := by rintro rfl; contradiction
    have hsp1 : (t.withSlot r (t.mem.read v.toNat)).slot 7 = some v :=
      (State.slot_withSlot_other _ _ _ _ h7.symm).trans hsp
    refine ⟨⟨_, execPop_ok hsp (toNat_slotOperand r) hsp1 h255, ?_⟩, ⟨_, execRet_ok hsp h255, rfl⟩⟩
    rw [State.slot_withPc, State.slot_withSlot_other _ _ _ _ h7, State.slot_withSlot_same]
  · intro hv
    obtain rfl : v = 255 := BitVec.eq_of_toNat_eq hv
    exact execRet_exhausted hsp

end Sys2Proof.Machine
end

section
/-! The text of a number (R105): it is the library's decimal text, whose digits are the number's. -/

namespace Sys2Proof.Machine

/-- The renderer writes a byte as the library writes a number in base ten: one, two or three digits. -/
theorem renderNum_eq_toDigits (v : Byte) : renderNum v = Nat.toDigits 10 v.toNat := by
  have hlt : v.toNat < 256 := v.isLt
  rw [renderNum]
  split
  · rw [Nat.toDigits_of_base_le (by omega) (by omega), Nat.toDigits_of_base_le (by omega) (by omega),
      Nat.toDigits_of_lt_base (by omega), Nat.div_div_eq_div_mul]
    rfl
  · split
    · rw [Nat.toDigits_of_base_le (by omega) (by omega), Nat.toDigits_of_lt_base (by omega),
        Nat.mod_eq_of_lt (a := v.toNat / 10) (by omega)]
      rfl
    · rw [Nat.toDigits_of_lt_base (by omega), Nat.mod_eq_of_lt (by omega)]

/-- A number's decimal text has decimal digits only. -/
theorem eq_digitChar_of_mem_toDigits {n : Nat} : ∀ c ∈ Nat.toDigits 10 n, ∃ d, d < 10 ∧ c = Nat.digitChar d := by
  induction n using Nat.strongRecOn with
  | ind n ih =>
    rcases Nat.lt_or_ge n 10 with hn | hn
    · rw [Nat.toDigits_of_lt_base hn]
      exact List.forall_mem_singleton.mpr ⟨n, hn, rfl⟩
    · rw [Nat.toDigits_of_base_le (by omega) hn]
      refine List.forall_mem_append.mpr ⟨ih (n / 10) (by omega), ?_⟩
      exact List.forall_mem_singleton.mpr ⟨n % 10, Nat.mod_lt _ (by omega), rfl⟩

/-- No leading zero: only the text of 0 begins with the digit 0. -/
theorem eq_zero_of_head?_toDigits {n : Nat} (h : (Nat.toDigits 10 n).head? = some '0') : n = 0 := by
  induction n using Nat.strongRecOn with
  | ind n ih =>
    rcases Nat.lt_or_ge n 10 with hn | hn
    · rw [Nat.toDigits_of_lt_base hn] at h
      exact Nat.digitChar_eq_zero.mp (Option.some.inj h)
    · rw [Nat.toDigits_of_base_le (by omega) hn, List.head?_append_of_ne_nil _ Nat.toDigits_ne_nil] at h
      have hrest : n / 10 = 0 := ih (n / 10) (by omega) h
      omega

/-- Settles O25: each clause is a fact of the library's decimal text. -/
theorem renderedNumberIsDecimal : Obligations.RenderedNumberIsDecimal := by
  intro v
  rw [renderNum_eq_toDigits]
  refine ⟨eq_digitChar_of_mem_toDigits, Nat.ofDigitChars_ten_toDigits,
    fun h => BitVec.eq_of_toNat_eq (eq_zero_of_head?_toDigits h), Nat.toDigits_ne_nil, ?_⟩
  rintro rfl
  exact Nat.toDigits_zero 10

end Sys2Proof.Machine
end

section
/-! ADD and MUL (42_alu.md): one instruction rule for both, over the operation the ALU computes, and the
faults the ALU cannot raise. -/

namespace Sys2Proof.Machine

variable {s t : State} {ra rb x y z : Byte}

/-- Settles O32: the ALU's bytes are the library's sum and product of bytes. -/
theorem aluResultsModulo256 : Obligations.AluResultsModulo256 :=
  fun a b => ⟨⟨a + b, aluCompute_add a b, BitVec.toNat_add a b⟩,
    ⟨a * b, aluCompute_mul a b, BitVec.toNat_mul a b⟩⟩

/-! ## The instruction rule -/

/-- An instruction with two register operands puts `f` of their bytes in the first register, after the
checks R124 and R125 give, in their order: the first register's index and slot, then the second's. -/
structure AluRule (mk : Byte → Byte → Instr) (f : Byte → Byte → Byte) : Prop where
  dest_outside (s : State) (ra rb : Byte) : 8 ≤ ra.toNat →
    exec (mk ra rb) s = .next (s.takeFault (.outOfBoundsRegister ra))
  dest_unset (s : State) (ra rb : Byte) (ha : ra.toNat < 8) : s.slot ⟨ra.toNat, ha⟩ = none →
    exec (mk ra rb) s = .next (s.takeFault (.uninitializedRegister ⟨ra.toNat, ha⟩))
  src_outside (s : State) (ra rb x : Byte) (ha : ra.toNat < 8) : s.slot ⟨ra.toNat, ha⟩ = some x →
    8 ≤ rb.toNat → exec (mk ra rb) s = .next (s.takeFault (.outOfBoundsRegister rb))
  src_unset (s : State) (ra rb x : Byte) (ha : ra.toNat < 8) (hb : rb.toNat < 8) :
    s.slot ⟨ra.toNat, ha⟩ = some x → s.slot ⟨rb.toNat, hb⟩ = none →
    exec (mk ra rb) s = .next (s.takeFault (.uninitializedRegister ⟨rb.toNat, hb⟩))
  both_set (s : State) (ra rb x y : Byte) (ha : ra.toNat < 8) (hb : rb.toNat < 8) :
    s.slot ⟨ra.toNat, ha⟩ = some x → s.slot ⟨rb.toNat, hb⟩ = some y →
    exec (mk ra rb) s = .next ((s.withSlot ⟨ra.toNat, ha⟩ (f x y)).withPc (s.pc + 3))

theorem State.getReg_set (h : ra.toNat < 8) (hx : s.slot ⟨ra.toNat, h⟩ = some x) : s.getReg ra = .ok x :=
  State.getReg_eq_ok.mpr ⟨_, rfl, hx⟩

theorem State.getReg_unset (h : ra.toNat < 8) (hx : s.slot ⟨ra.toNat, h⟩ = none) :
    s.getReg ra = .error (.uninitializedRegister ⟨ra.toNat, h⟩) :=
  State.getReg_eq_error.mpr (.inr ⟨_, rfl, hx, rfl⟩)

/-- The destination is read before the source (D27), so its fault comes first. -/
theorem aluApply_dest_error {aop : AluOp} {c : Cause} (ha : s.getReg ra = .error c) :
    s.aluApply aop ra rb = .error c := by
  rw [State.aluApply, ha, error_bind]

theorem aluApply_src_error {aop : AluOp} {c : Cause} (ha : s.getReg ra = .ok x)
    (hb : s.getReg rb = .error c) : s.aluApply aop ra rb = .error c := by
  rw [State.aluApply, ha, ok_bind, hb, error_bind]

theorem aluApply_ok {aop : AluOp} (h : ra.toNat < 8) (ha : s.getReg ra = .ok x) (hb : s.getReg rb = .ok y)
    (hz : aluCompute aop x y = .ok z) : s.aluApply aop ra rb = .ok (s.withSlot ⟨ra.toNat, h⟩ z) := by
  rw [State.aluApply, ha, ok_bind, hb, ok_bind, hz, ok_bind, s.setReg_inside z h]

/-- An instruction of three bytes that commits what the ALU computes follows the rule of that
computation. -/
theorem aluRule_of_commit {mk : Byte → Byte → Instr} {f : Byte → Byte → Byte} {op : Op} {aop : AluOp}
    (hexec : ∀ ra rb s, exec (mk ra rb) s = commit op s (s.aluApply aop ra rb))
    (hcompute : ∀ x y, aluCompute aop x y = .ok (f x y))
    (hn : operandCount op.byte = 2) (hflag : suppressFlag op.byte = false) : AluRule mk f where
  dest_outside s ra rb h := by
    rw [hexec, aluApply_dest_error (s.getReg_outside h), commit_error]
  dest_unset s ra rb ha hu := by
    rw [hexec, aluApply_dest_error (State.getReg_unset ha hu), commit_error]
  src_outside s ra rb x ha hx h := by
    rw [hexec, aluApply_src_error (State.getReg_set ha hx) (s.getReg_outside h), commit_error]
  src_unset s ra rb x ha hb hx hu := by
    rw [hexec, aluApply_src_error (State.getReg_set ha hx) (State.getReg_unset hb hu), commit_error]
  both_set s ra rb x y ha hb hx hy := by
    rw [hexec, aluApply_ok ha (State.getReg_set ha hx) (State.getReg_set hb hy) (hcompute x y), commit_ok,
      decodeOpcode_n, decodeOpcode_s, hn, hflag, nextPc_advance]

theorem aluRule_add : AluRule .add (· + ·) :=
  aluRule_of_commit (fun _ _ _ => rfl) aluCompute_add (operandCount_byte .add) (suppressFlag_byte .add)

theorem aluRule_mul : AluRule .mul (· * ·) :=
  aluRule_of_commit (fun _ _ _ => rfl) aluCompute_mul (operandCount_byte .mul) (suppressFlag_byte .mul)

/-- Settles O42: the ALU's rule for the sum, and a fetch that needs the pc below 254. -/
theorem addRule : Obligations.AddRule :=
  ⟨fun a b => decodeOfEncode (.add a b) [], ⟨operandCount_byte .add, suppressFlag_byte .add⟩,
    aluRule_add.dest_outside, aluRule_add.dest_unset, aluRule_add.src_outside, aluRule_add.src_unset,
    aluRule_add.both_set, fun _ hrun hpc hop hend =>
      step_truncated (operandCount_byte .add) hrun hpc hop (Nat.add_le_add_right hend 2)⟩

/-- Settles O43: the ALU's rule for the product, and a fetch that needs the pc below 254. -/
theorem mulRule : Obligations.MulRule :=
  ⟨fun a b => decodeOfEncode (.mul a b) [], ⟨operandCount_byte .mul, suppressFlag_byte .mul⟩,
    aluRule_mul.dest_outside, aluRule_mul.dest_unset, aluRule_mul.src_outside, aluRule_mul.src_unset,
    aluRule_mul.both_set, fun _ hrun hpc hop hend =>
      step_truncated (operandCount_byte .mul) hrun hpc hop (Nat.add_le_add_right hend 2)⟩

/-! ## The operation no program can ask for -/

/-- No handler asks the ALU for an unsupported operation (R122, D25). -/
theorem Raised.kind_ne_unsupported {os : List Byte} {c : Cause} (h : Raised os c) :
    c.kind ≠ .unsupportedAluOperation := by
  cases h <;> exact nofun

/-- Fetching an instruction does not reach the ALU. -/
theorem fetchInstr_kind_ne_unsupported {c : Cause} (h : s.fetchInstr = .error c) :
    c.kind ≠ .unsupportedAluOperation := by
  rcases s.fetchInstr_cases with ⟨-, he⟩ | ⟨-, -, he⟩ | ⟨-, -, -, -, he⟩ | ⟨_, -, -, hok⟩
  · cases he.symm.trans h; exact nofun
  · cases he.symm.trans h; exact nofun
  · cases he.symm.trans h; exact nofun
  · cases hok.symm.trans h

/-- Settles O33: a step records what its instruction raised or what fetching one did, and neither is an
unsupported operation. -/
theorem unsupportedAluOperationUnreachable : Obligations.UnsupportedAluOperationUnreachable := by
  refine ⟨fun _ _ _ => rfl, fun s t h hs r hr => ?_, (boundOp_eq_none_iff _).mpr (by decide)⟩
  rcases step_cases h with ⟨-, ⟨i, -, hexec⟩ | ⟨c, hfetch, rfl⟩⟩
  · exact (exec_recorded hs hexec hr).kind_ne_unsupported
  · cases hr
    exact fetchInstr_kind_ne_unsupported hfetch

end Sys2Proof.Machine
end

section
/-! Where a stack instruction that does not fault leaves SP, as a number (R127, R143). -/

namespace Sys2Proof.Machine

variable {s t : State} {r sp : Byte}

/-- Of what an instruction can do, one that does not end in Faulted did not take a fault. -/
theorem effect_of_not_faulted {effect : Prop} (h : effect ∨ ∃ c, t = s.takeFault c)
    (ht : t.status ≠ .faulted) : effect :=
  h.resolve_right fun ⟨c, hc⟩ => ht (by rw [hc, State.takeFault_status])

/-- PUSH and CALL leave SP one lower. -/
theorem exec_pushCall_sp {i : Instr} (hsp : s.slot 7 = some sp) (hi : ∃ r, i = .push r ∨ i = .call r)
    (h : exec i s = .next t) (ht : t.status ≠ .faulted) :
    ∃ sp', t.slot 7 = some sp' ∧ sp'.toNat + 1 = sp.toNat := by
  obtain ⟨sp0, sp1, x, p, hsp0, hsp1, rfl⟩ := effect_of_not_faulted (exec_pushCall_cases hi h) ht
  obtain rfl : sp = sp0 := Option.some.inj (hsp.symm.trans (State.getSp_eq_ok.mp hsp0))
  have hmove : (sp.toNat - 1 : Int) = sp1.toNat := checkSp_eq_ok.mp hsp1
  exact ⟨sp1, s.slot_withSlot_same 7 sp1, by omega⟩

/-- RET leaves SP one higher. -/
theorem execRet_sp (hsp : s.slot 7 = some sp) (h : execRet s = .next t) (ht : t.status ≠ .faulted) :
    ∃ sp', t.slot 7 = some sp' ∧ sp'.toNat = sp.toNat + 1 := by
  obtain ⟨sp0, sp2, hsp0, hmove, rfl⟩ := effect_of_not_faulted (execRet_cases h) ht
  obtain rfl : sp = sp0 := Option.some.inj (hsp.symm.trans hsp0)
  exact ⟨sp2, s.slot_withSlot_same 7 sp2, hmove⟩

/-- POP leaves SP one above what R7 holds once its operand's slot is written (R142, D23). -/
theorem execPop_sp (hsp : s.slot 7 = some sp) (h : execPop r s = .next t) (ht : t.status ≠ .faulted) :
    ∃ (k : Fin 8) (sp1 sp' : Byte), r.toNat = k.val ∧
      (s.withSlot k (s.mem.read sp.toNat)).slot 7 = some sp1 ∧
      t.slot 7 = some sp' ∧ sp'.toNat = sp1.toNat + 1 := by
  obtain ⟨k, sp0, sp1, sp2, hsp0, hk, hsp1, hmove, rfl⟩ := effect_of_not_faulted (execPop_cases h) ht
  obtain rfl : sp = sp0 := Option.some.inj (hsp.symm.trans hsp0)
  exact ⟨k, sp1, sp2, hk, hsp1, State.slot_withSlot_same _ 7 sp2, hmove⟩

/-- POP to another register than R7 leaves SP one higher. -/
theorem execPop_sp_other (hsp : s.slot 7 = some sp) (h : execPop r s = .next t) (ht : t.status ≠ .faulted)
    (h7 : r ≠ 7) : ∃ sp', t.slot 7 = some sp' ∧ sp'.toNat = sp.toNat + 1 := by
  obtain ⟨k, sp1, sp', hk, hsp1, hsp', hmove⟩ := execPop_sp hsp h ht
  have hk7 : 7 ≠ k := fun hk7 => h7 (BitVec.eq_of_toNat_eq (by rw [hk, ← hk7]; rfl))
  rw [State.slot_withSlot_other _ _ _ _ hk7, hsp] at hsp1
  cases hsp1
  exact ⟨sp', hsp', hmove⟩

/-- POP R7 leaves SP one above the popped byte. -/
theorem execPop_sp_seven (hsp : s.slot 7 = some sp) (h : execPop 7 s = .next t) (ht : t.status ≠ .faulted) :
    ∃ sp', t.slot 7 = some sp' ∧ sp'.toNat = (s.mem.read sp.toNat).toNat + 1 := by
  obtain ⟨k, sp1, sp', hk, hsp1, hsp', hmove⟩ := execPop_sp hsp h ht
  obtain rfl : k = 7 := Fin.ext hk.symm
  rw [State.slot_withSlot_same] at hsp1
  cases hsp1
  exact ⟨sp', hsp', hmove⟩

/-- Settles O48: each stack instruction's move of SP is exact, for its bounds check passed. -/
theorem stackPointerNeverWraps : Obligations.StackPointerNeverWraps := by
  intro s t sp i hsp _ h ht
  refine ⟨fun hi => exec_pushCall_sp hsp hi h ht, ?_, ?_⟩
  · rintro (rfl | ⟨r, rfl, h7⟩)
    · exact execRet_sp hsp h ht
    · exact execPop_sp_other hsp h ht h7
  · rintro rfl
    exact execPop_sp_seven hsp h ht

end Sys2Proof.Machine
end

section
/-! PUSH and POP (43_stack.md): the faults that execution in the rules' written order leaves them, and with
their effects the whole of each rule. -/

namespace Sys2Proof.Machine

variable {s : State} {k : Fin 8} {r sp : Byte}

/-- An operand byte other than 7 names a slot other than SP's. -/
theorem slot_ne_seven (hr : r.toNat = k.val) (h7 : r ≠ 7) : k ≠ 7 := by
  rintro rfl
  exact h7 (BitVec.eq_of_toNat_eq hr)

/-- Where SP can move down, PUSH faults as the read of its operand does, which comes after the move
(R141). -/
theorem execPush_register_error {c : Cause} (hsp : s.slot 7 = some sp) (h0 : sp ≠ 0)
    (hr : (s.withSlot 7 (sp - 1)).getReg r = .error c) : execPush r s = .next (s.takeFault c) := by
  rw [execPush, State.getSp_eq_ok.mpr hsp, ok_bind, checkSp_pred h0, ok_bind, State.setSp_eq, ok_bind, hr,
    error_bind, commit_error]

/-- Settles O45: the check of SP, then the read of the operand's slot, which the move of SP has changed for
R7 only. -/
theorem pushRule : Obligations.PushRule := by
  refine ⟨fun r => decodeOfEncode (.push r) [], fun s r hsp => execPush_exhausted r hsp,
    fun s r sp hsp h0 h8 => ?_, fun s r sp h hsp h0 h7 hunset => ?_, fun s r sp v h hsp h0 h7 hv => ?_,
    fun s sp hsp h0 => ?_, fun s hrun hpc hop => ?_⟩
  · exact execPush_register_error hsp h0 (State.getReg_outside _ h8)
  · have hslot := s.slot_withSlot_other 7 ⟨r.toNat, h⟩ (sp - 1) (slot_ne_seven rfl h7)
    exact execPush_register_error hsp h0 (State.getReg_unset h (hslot.trans hunset))
  · have hslot := s.slot_withSlot_other 7 ⟨r.toNat, h⟩ (sp - 1) (slot_ne_seven rfl h7)
    exact execPush_ok hsp h0 rfl (hslot.trans hv)
  · exact execPush_ok (k := 7) hsp h0 rfl (s.slot_withSlot_same 7 (sp - 1))
  · exact step_truncated (n := 1) (operandCount_byte .push) hrun (by omega) hop (by omega)

/-- POP's first check is its operand's index (R142): reading the byte at SP cannot fault. -/
theorem execPop_outside (hsp : s.slot 7 = some sp) (h8 : 8 ≤ r.toNat) :
    execPop r s = .next (s.takeFault (.outOfBoundsRegister r)) := by
  rw [execPop, State.getSp_eq_ok.mpr hsp, ok_bind, State.memRead_byte, ok_bind, State.setReg_outside _ _ h8,
    error_bind, commit_error]

/-- POP faults where SP stands at 255 once its operand's slot is written (R142, D23). -/
theorem execPop_exhausted (hsp : s.slot 7 = some sp) (hr : r.toNat = k.val)
    (hsp1 : (s.withSlot k (s.mem.read sp.toNat)).slot 7 = some 255) :
    execPop r s = .next (s.takeFault (.stackExhausted 256)) := by
  rw [execPop, State.getSp_eq_ok.mpr hsp, ok_bind, State.memRead_byte, ok_bind,
    State.setReg_eq_ok.mpr ⟨k, hr, rfl⟩, ok_bind, State.getSp_eq_ok.mpr hsp1]
  rfl

/-- A write of another slot than R7 leaves SP where it stands. -/
theorem sp_withSlot (hsp : s.slot 7 = some sp) (hk : k ≠ 7) (v : Byte) : (s.withSlot k v).slot 7 = some sp :=
  (s.slot_withSlot_other k 7 v hk.symm).trans hsp

/-- POP to another register than R7 faults at SP = 255. -/
theorem execPop_exhausted_other (hsp : s.slot 7 = some 255) (h : r.toNat < 8) (h7 : r ≠ 7) :
    execPop r s = .next (s.takeFault (.stackExhausted 256)) :=
  execPop_exhausted (k := ⟨r.toNat, h⟩) hsp rfl (sp_withSlot hsp (slot_ne_seven rfl h7) _)

/-- POP R7 faults at a popped byte of 255 (D23). -/
theorem execPop_exhausted_seven (hsp : s.slot 7 = some sp) (hread : s.mem.read sp.toNat = 255) :
    execPop 7 s = .next (s.takeFault (.stackExhausted 256)) :=
  execPop_exhausted (k := 7) hsp rfl (by rw [State.slot_withSlot_same, hread])

/-- Settles O46: the operand's index, then the bound of SP as the write of the operand's slot leaves it. -/
theorem popRule : Obligations.PopRule := by
  refine ⟨fun r => decodeOfEncode (.pop r) [], fun s r sp hsp h8 => execPop_outside hsp h8,
    fun s r h h7 hsp => execPop_exhausted_other hsp h h7, fun s r sp h h7 hsp h255 => ?_,
    fun s sp hsp hread => execPop_exhausted_seven hsp hread, fun s sp hsp hread => ?_,
    fun s hrun hpc hop => ?_⟩
  · exact execPop_ok hsp rfl (sp_withSlot hsp (slot_ne_seven rfl h7) _) h255
  · rw [← s.withSlot_withSlot 7 (s.mem.read sp.toNat)]
    exact execPop_ok (k := 7) hsp rfl (s.slot_withSlot_same 7 _) hread
  · exact step_truncated (n := 1) (operandCount_byte .pop) hrun (by omega) hop (by omega)

/-- Settles O49: POP finds SP where PUSH left it, and there the byte PUSH stored. -/
theorem pushPopRoundTrip : Obligations.PushPopRoundTrip := by
  intro s k j v sp hwf hk hj hkj hv hsp h0
  have hpushed : (s.withSlot 7 (sp - 1)).slot k = some v := (s.slot_withSlot_other 7 k _ hk).trans hv
  refine ⟨_, _, execPush_ok hsp h0 (toNat_slotOperand k) hpushed,
    execPop_ok (sp := sp - 1) (k := j) (s.slot_withSlot_same 7 _) (toNat_slotOperand j)
      (sp_withSlot (s.slot_withSlot_same 7 _) hj _) (by bv_omega), ?_, ?_, ?_⟩
  · rw [State.slot_withPc, State.slot_withSlot_other _ _ _ _ hj, State.slot_withSlot_same,
      State.withPc_mem, State.withMem_mem, toNat_pred h0, Memory.read_write_same _ v hwf]
  · rw [State.slot_withPc, State.slot_withSlot_other _ _ _ _ hk, State.slot_withSlot_other _ _ _ _ hkj]
    exact hpushed
  · rw [State.slot_withPc, State.slot_withSlot_same, BitVec.sub_add_cancel]

end Sys2Proof.Machine
end

section
/-! The stack's bounds are the only causes of `StackExhausted` (R143): of the operations a handler is made
of, none raises it but the check of SP, and that check raises it at 0 downwards and at 255 upwards. -/

namespace Sys2Proof.Machine

variable {s : State} {P : Int → Prop} {op : Op} {r sp : Byte}

/-- The cases in which an instruction exhausts the stack, and the value SP would have taken (R143). -/
def StackExhausts (i : Instr) (s : State) (v : Int) : Prop :=
  (v = -1 ∧ s.slot 7 = some 0 ∧ ∃ r, i = .push r ∨ i = .call r) ∨
  (v = 256 ∧ ((s.slot 7 = some 255 ∧ (i = .ret ∨ ∃ r, i = .pop r ∧ r.toNat < 7)) ∨
    (i = .pop 7 ∧ ∃ sp, s.slot 7 = some sp ∧ s.mem.read sp.toNat = 255)))

/-- If the cause is `StackExhausted`, its value satisfies `P`. -/
def ExhaustedOnly (P : Int → Prop) (c : Cause) : Prop := ∀ v, c = .stackExhausted v → P v

theorem Answers.imp {α : Type} {x : Except Cause α} {Q R : α → Prop} {E : Cause → Prop} (hx : Answers x Q E)
    (h : ∀ a, Q a → R a) : Answers x R E := by
  cases x with
  | ok a => exact h a hx
  | error c => exact hx

/-- A commit that takes `StackExhausted` takes it with a value the handler can raise it with. -/
theorem commit_exhausted {x : Except Cause State} {v : Int}
    (hx : Answers x (·.fault = none) (ExhaustedOnly P))
    (h : commit op s x = .next (s.takeFault (.stackExhausted v))) : P v :=
  commit_recorded hx h rfl v rfl

/-! ## Operations that do not check SP -/

theorem getReg_exhaustedOnly (s : State) (o : Byte) :
    Answers (s.getReg o) (fun _ => True) (ExhaustedOnly P) := by
  refine .of_cases (fun _ _ => trivial) fun c h => ?_
  rcases State.getReg_eq_error.mp h with ⟨-, rfl⟩ | ⟨k, -, -, rfl⟩
  · exact nofun
  · exact nofun

theorem setReg_exhaustedOnly (s : State) (o v : Byte) :
    Answers (s.setReg o v) (fun u => ∃ k : Fin 8, o.toNat = k.val ∧ u = s.withSlot k v) (ExhaustedOnly P) := by
  refine .of_cases (fun _ h => State.setReg_eq_ok.mp h) fun c h => ?_
  obtain ⟨-, rfl⟩ := State.setReg_eq_error.mp h
  exact nofun

theorem getSp_exhaustedOnly (s : State) : Answers s.getSp (s.slot 7 = some ·) (ExhaustedOnly P) := by
  refine .of_cases (fun _ h => State.getSp_eq_ok.mp h) fun c h => ?_
  rw [State.getSp_eq] at h
  obtain ⟨-, rfl⟩ := slotValue_eq_error.mp h
  exact nofun

theorem returnAddress_exhaustedOnly (p : Nat) :
    Answers (returnAddress p) (fun _ => True) (ExhaustedOnly P) := by
  unfold returnAddress
  split
  · exact nofun
  · trivial

theorem setReg_keeps_no_fault (o v : Byte) (hs : s.fault = none) :
    Answers (s.setReg o v) (·.fault = none) (ExhaustedOnly P) := by
  refine (setReg_exhaustedOnly s o v).imp ?_
  rintro _ ⟨k, -, rfl⟩
  exact hs

theorem aluApply_exhaustedOnly {aop : AluOp} {f : Byte → Byte → Byte} (ra rb : Byte) (hs : s.fault = none)
    (haop : ∀ x y, aluCompute aop x y = .ok (f x y)) :
    Answers (s.aluApply aop ra rb) (·.fault = none) (ExhaustedOnly P) := by
  refine (getReg_exhaustedOnly s ra).bind fun x _ => (getReg_exhaustedOnly s rb).bind fun y _ => ?_
  rw [haop, ok_bind]
  exact setReg_keeps_no_fault ra _ hs

/-! ## The check of SP -/

/-- The move down is exhausted at 0 only. -/
theorem checkSp_pred_exhaustedOnly (h : sp = 0 → P (-1)) :
    Answers (checkSp (sp.toNat - 1)) (fun _ => True) (ExhaustedOnly P) := by
  by_cases h0 : sp = 0
  · subst h0
    rintro v ⟨⟩
    exact h rfl
  · rw [checkSp_pred h0]
    trivial

/-- The move up is exhausted at 255 only. -/
theorem checkSp_succ_exhaustedOnly (h : sp = 255 → P 256) :
    Answers (checkSp (sp.toNat + 1)) (fun _ => True) (ExhaustedOnly P) := by
  by_cases h255 : sp = 255
  · subst h255
    rintro v ⟨⟩
    exact h rfl
  · rw [checkSp_succ h255]
    trivial

/-! ## The instructions -/

/-- POP is exhausted where SP stands at 255 once its operand's slot `k` is written: for R7 the popped byte
is 255, for another register SP was (D23). -/
theorem stackExhausts_pop {k : Fin 8} (hsp : s.slot 7 = some sp) (hr : r.toNat = k.val)
    (hsp1 : (s.withSlot k (s.mem.read sp.toNat)).slot 7 = some 255) : StackExhausts (.pop r) s 256 := by
  by_cases hk : k = 7
  · subst hk
    obtain rfl : r = 7 := BitVec.eq_of_toNat_eq hr
    rw [State.slot_withSlot_same] at hsp1
    exact .inr ⟨rfl, .inr ⟨rfl, sp, hsp, Option.some.inj hsp1⟩⟩
  · rw [sp_withSlot hsp hk] at hsp1
    exact .inr ⟨rfl, .inl ⟨hsp.trans hsp1, .inr ⟨r, rfl, by omega⟩⟩⟩

/-- From a state without a fault, an instruction takes `StackExhausted` only in the cases of R143. -/
theorem stackExhausts_of_exec {i : Instr} {v : Int} (hs : s.fault = none)
    (h : exec i s = .next (s.takeFault (.stackExhausted v))) : StackExhausts i s v := by
  cases i with
  | hlt =>
    have hstatus := congrArg State.status (Host.Outcome.next.inj ((execHlt_eq s).symm.trans h))
    cases hstatus
  | ldi o x => exact commit_exhausted (setReg_keeps_no_fault o _ hs) h
  | prn o =>
    refine commit_exhausted ?_ h
    exact (getReg_exhaustedOnly s o).bind fun x _ => .ok hs
  | add ra rb => exact commit_exhausted (aluApply_exhaustedOnly ra rb hs aluCompute_add) h
  | mul ra rb => exact commit_exhausted (aluApply_exhaustedOnly ra rb hs aluCompute_mul) h
  | push o =>
    refine commit_exhausted ?_ h
    refine (getSp_exhaustedOnly s).bind fun sp hsp =>
      (checkSp_pred_exhaustedOnly fun h0 => ?_).bind fun sp1 _ => ?_
    · exact .inl ⟨rfl, h0 ▸ hsp, o, .inl rfl⟩
    · rw [State.setSp_eq, ok_bind]
      refine (getReg_exhaustedOnly _ o).bind fun x _ => ?_
      rw [State.memWrite_byte]
      exact hs
  | pop o =>
    refine commit_exhausted ?_ h
    refine (getSp_exhaustedOnly s).bind fun sp hsp => ?_
    rw [State.memRead_byte, ok_bind]
    refine (setReg_exhaustedOnly s o _).bind ?_
    rintro _ ⟨k, hk, rfl⟩
    refine (getSp_exhaustedOnly _).bind fun sp1 hsp1 =>
      (checkSp_succ_exhaustedOnly fun h255 => ?_).bind fun sp2 _ => ?_
    · exact stackExhausts_pop hsp hk (h255 ▸ hsp1)
    · rw [State.setSp_eq]
      exact hs
  | call o =>
    refine commit_exhausted ?_ h
    refine (getSp_exhaustedOnly s).bind fun sp hsp =>
      (checkSp_pred_exhaustedOnly fun h0 => ?_).bind fun sp1 _ => ?_
    · exact .inl ⟨rfl, h0 ▸ hsp, o, .inr rfl⟩
    · rw [State.setSp_eq, ok_bind]
      refine (returnAddress_exhaustedOnly _).bind fun ret _ => ?_
      rw [State.memWrite_byte, ok_bind]
      exact (getReg_exhaustedOnly _ o).bind fun x _ => .ok hs
  | ret =>
    refine commit_exhausted ?_ h
    refine (getSp_exhaustedOnly s).bind fun sp hsp => ?_
    rw [State.memRead_byte, ok_bind]
    refine (checkSp_succ_exhaustedOnly fun h255 => ?_).bind fun sp2 _ => ?_
    · exact .inr ⟨rfl, .inl ⟨h255 ▸ hsp, .inl rfl⟩⟩
    · rw [State.setSp_eq]
      exact hs

/-- Settles O47: each instruction faults at its bound, and nothing else raises `StackExhausted`. -/
theorem stackBoundsFault : Obligations.StackBoundsFault := by
  refine ⟨fun s r hsp => ⟨execPush_exhausted r hsp, execCall_exhausted r hsp⟩,
    fun s hsp => ⟨execRet_exhausted hsp, fun r hr => ?_⟩,
    fun s sp hsp hread => execPop_exhausted_seven hsp hread, fun i s v h hs => stackExhausts_of_exec hs h⟩
  exact execPop_exhausted_other hsp (by omega) (by rintro rfl; contradiction)

end Sys2Proof.Machine
end

section
/-! CALL and RET (44_subroutine.md): the faults that execution in the rules' written order leaves CALL, the
fetch of RET, and with their effects the whole of each rule and the law that joins the two. -/

namespace Sys2Proof.Machine

variable {s : State} {r sp x : Byte}

/-! ## CALL -/

/-- A return address past 255 does not fit the byte memory holds (R161, D9). -/
theorem returnAddress_outside {p : Nat} (h : 255 < p + 2) :
    returnAddress p = .error (.outOfBoundsAddress (p + 2)) := if_pos h

/-- Where SP can move down, CALL's next check is that its return address fits a byte (R160, R161). -/
theorem execCall_return_outside (hsp : s.slot 7 = some sp) (h0 : sp ≠ 0) (hpc : 255 < s.pc + 2) :
    execCall r s = .next (s.takeFault (.outOfBoundsAddress (s.pc + 2))) := by
  rw [execCall, State.getSp_eq_ok.mpr hsp, ok_bind, checkSp_pred h0, ok_bind, State.setSp_eq, ok_bind,
    returnAddress_outside hpc, error_bind, commit_error]

/-- Where the return address is stored, CALL faults as the read of its operand does, which comes last
(R160). -/
theorem execCall_register_error {c : Cause} (hsp : s.slot 7 = some sp) (h0 : sp ≠ 0) (hpc : s.pc + 2 < 256)
    (hr : (s.withSlot 7 (sp - 1)).getReg r = .error c) : execCall r s = .next (s.takeFault c) := by
  rw [execCall, State.getSp_eq_ok.mpr hsp, ok_bind, checkSp_pred h0, ok_bind, State.setSp_eq, ok_bind,
    returnAddress_eq_ok.mpr ⟨hpc, rfl⟩, ok_bind, State.memWrite_byte, ok_bind, State.getReg_withMem, hr,
    error_bind, commit_error]

/-- CALL through another register than R7 jumps to the byte the register held before it (R160). -/
theorem execCall_ok_other (hsp : s.slot 7 = some sp) (h0 : sp ≠ 0) (hpc : s.pc + 2 < 256)
    (h : r.toNat < 8) (h7 : r ≠ 7) (hx : s.slot ⟨r.toNat, h⟩ = some x) : execCall r s = .next
      (((s.withSlot 7 (sp - 1)).withMem
        (s.mem.write (sp.toNat - 1) (BitVec.ofNat 8 (s.pc + 2)))).withPc x.toNat) :=
  execCall_ok hsp h0 hpc rfl ((State.slot_withSlot_other _ _ _ _ (slot_ne_seven rfl h7)).trans hx)

/-- CALL R7 jumps to the SP it has just moved (D23). -/
theorem execCall_ok_seven (hsp : s.slot 7 = some sp) (h0 : sp ≠ 0) (hpc : s.pc + 2 < 256) :
    execCall 7 s = .next
      (((s.withSlot 7 (sp - 1)).withMem
        (s.mem.write (sp.toNat - 1) (BitVec.ofNat 8 (s.pc + 2)))).withPc (sp.toNat - 1)) := by
  have hcall := execCall_ok (r := 7) (k := 7) hsp h0 hpc rfl (s.slot_withSlot_same 7 (sp - 1))
  rwa [toNat_pred h0] at hcall

/-- Settles O52: the check of SP, then of the return address, then the read of the operand's slot, which
the move of SP has changed for R7 only. -/
theorem callRule : Obligations.CallRule := by
  refine ⟨fun r => decodeOfEncode (.call r) [], fun s r hsp => execCall_exhausted r hsp,
    fun s r sp hsp h0 hpc => execCall_return_outside hsp h0 hpc, fun s r sp hsp h0 hpc h8 => ?_,
    fun s r sp h hsp h0 hpc h7 hunset => ?_, fun s r sp v h hsp h0 hpc h7 hv => ?_,
    fun s sp hsp h0 hpc => ?_, fun s hrun hpc hop => ?_⟩
  · exact execCall_register_error hsp h0 (by omega) (State.getReg_outside _ h8)
  · have hslot := s.slot_withSlot_other 7 ⟨r.toNat, h⟩ (sp - 1) (slot_ne_seven rfl h7)
    exact execCall_register_error hsp h0 (by omega) (State.getReg_unset h (hslot.trans hunset))
  · exact execCall_ok_other hsp h0 (by omega) h h7 hv
  · exact execCall_ok_seven hsp h0 (by omega)
  · exact step_truncated (n := 1) (operandCount_byte .call) hrun (by omega) hop (by omega)

/-! ## RET -/

/-- An operation without operands is fetched wherever its opcode byte stands (R81). -/
theorem fetchInstr_operandless {ins : Op} (hn : operandCount ins.byte = 0) (hpc : s.pc < 256)
    (hop : s.mem.read s.pc = ins.byte) : s.fetchInstr = .ok (ins.instr []) := by
  rw [s.fetchInstr_legal hpc ((boundOp_eq_some_iff _ ins).mpr hop), hop, hn]
  rfl

/-- Settles O53: RET's one check is the bound of SP, and its one byte is always fetched. -/
theorem retRule : Obligations.RetRule := by
  refine ⟨decodeOfEncode .ret [], fun s hsp => execRet_exhausted hsp,
    fun s sp hsp h255 => execRet_ok hsp h255, fun s hrun hpc hop => ?_⟩
  have hfetch : s.fetchInstr = .ok .ret := fetchInstr_operandless (ins := .ret) (operandCount_byte .ret) hpc hop
  rw [step_running hrun, runningStep_ok hfetch]

/-! ## The two together -/

/-- RET from one below an SP other than 0 resumes at the byte stored there and moves SP back (R162). -/
theorem execRet_pred (hsp : s.slot 7 = some (sp - 1)) (h0 : sp ≠ 0)
    (hread : s.mem.read (sp.toNat - 1) = x) :
    ∃ w, execRet s = .next w ∧ w.pc = x.toNat ∧ w.slot 7 = some sp := by
  refine ⟨_, execRet_ok hsp (by bv_omega), ?_, ?_⟩
  · rw [State.withPc_pc, toNat_pred h0, hread]
  · rw [State.slot_withPc, State.slot_withSlot_same, BitVec.sub_add_cancel]

/-- Settles O54: CALL leaves SP one lower and its return address there, a byte whose number is that
address because it fits. -/
theorem callReturnLaw : Obligations.CallReturnLaw := by
  intro s r sp v h hwf hsp h0 hpc h7 hv
  refine ⟨_, execCall_ok_other hsp h0 (by omega) h h7 hv, rfl, fun u husp huread => ?_⟩
  have hsp' : u.slot 7 = some (sp - 1) := husp.trans (s.slot_withSlot_same 7 (sp - 1))
  have hread : u.mem.read (sp.toNat - 1) = BitVec.ofNat 8 (s.pc + 2) :=
    huread.trans (Memory.read_write_same _ _ hwf)
  have hfits : (BitVec.ofNat 8 (s.pc + 2)).toNat = s.pc + 2 := Nat.mod_eq_of_lt (by omega)
  obtain ⟨w, hret, hwpc, hwsp⟩ := execRet_pred hsp' h0 hread
  exact ⟨w, hret, hwpc.trans hfits, hwsp⟩

end Sys2Proof.Machine
end

section
/-! Faults (60_exceptions.md): a step that ends in Faulted has taken the fault entry, and nothing follows. -/

namespace Sys2Proof.Machine

variable {s t : State}

/-- An instruction that leaves Faulted a machine that was not Faulted took the fault entry (R13, R184). -/
theorem exec_eq_takeFault {i : Instr} (hs : s.status ≠ .faulted) (h : exec i s = .next t)
    (ht : t.status = .faulted) : ∃ c, t = s.takeFault c := by
  rcases exec_cases h with ⟨-, rfl⟩ | ⟨-, he, -⟩ | ⟨-, hc⟩
  · cases ht
  · exact absurd (he.status.symm.trans ht) hs
  · exact hc

/-- A step that ends in Faulted took the fault entry, in the fetch or in the instruction (R88, R184). -/
theorem step_eq_takeFault (h : step s = .next t) (ht : t.status = .faulted) : ∃ c, t = s.takeFault c := by
  obtain ⟨hrun, ⟨i, -, hi⟩ | ⟨c, -, hc⟩⟩ := step_cases h
  · exact exec_eq_takeFault (by simp [hrun]) hi ht
  · exact ⟨c, hc⟩

/-- Settles O11: the fault entry writes the status and the record, of the state before the step. -/
theorem faultsArePrecise : Obligations.FaultsArePrecise := by
  intro s t h ht
  obtain ⟨c, rfl⟩ := step_eq_takeFault h ht
  exact ⟨rfl, rfl, rfl, rfl, c, rfl⟩

theorem step_faulted (h : s.status = .faulted) : step s = .fault (.hasFaulted s.fault) := by
  rw [step, h, State.faultedStep]

/-- Outside Idle `load` is refused for that, before it looks at anything else (R212). -/
theorem Session.load_not_idle {h : Session} (hs : h.machine.status ≠ .idle) (bytes : List Byte) :
    h.load bytes = .refused .loadNotIdle := if_pos hs

/-- Settles O12: Faulted has no step, and it is not Idle, where alone the host's commands are accepted. -/
theorem faultedIsFinal : Obligations.FaultedIsFinal := by
  intro s hs
  have hidle : s.status ≠ .idle := by simp [hs]
  exact ⟨step_faulted hs, runCommand_not_idle hidle, fun _ bytes => Session.load_not_idle hidle bytes⟩

end Sys2Proof.Machine
end

section
/-! The host's two commands (R212, R213): where each is accepted and what it leaves, and the run of a
machine nothing was loaded into (R220). -/

namespace Sys2Proof.Machine

/-! ## load -/

/-- `load`, where it is accepted, places the program in memory, and counts as done from then on (R212). -/
theorem Session.load_accepted {h : Session} {bytes : List Byte} (hidle : h.machine.status = .idle)
    (hload : h.loaded = false) (hlen : bytes.length ≤ 256) :
    h.load bytes = .next ⟨h.machine.withMem (h.machine.mem.place 0 bytes), true⟩ := by
  rw [Session.load, if_neg (not_not.mpr hidle), hload, if_neg Bool.false_ne_true, if_neg (Nat.not_lt.mpr hlen)]
  rfl

/-- `load` has a refusal for each of its three conditions (R212, D18). -/
theorem Session.load_refused {h : Session} {bytes : List Byte}
    (hbad : h.machine.status ≠ .idle ∨ h.loaded = true ∨ 256 < bytes.length) :
    ∃ r, h.load bytes = .refused r := by
  unfold Session.load
  split
  · exact ⟨_, rfl⟩
  · rename_i hidle
    rw [or_iff_right hidle] at hbad
    split
    · exact ⟨_, rfl⟩
    · rename_i hload
      exact ⟨_, if_pos (hbad.resolve_left hload)⟩

/-- Everything an accepted `load` can leave. -/
theorem Session.load_eq_next {h h' : Session} {bytes : List Byte} (hl : h.load bytes = .next h') :
    h' = ⟨h.machine.withMem (h.machine.mem.place 0 bytes), true⟩ := by
  by_cases hbad : h.machine.status ≠ .idle ∨ h.loaded = true ∨ 256 < bytes.length
  · obtain ⟨r, hr⟩ := Session.load_refused hbad
    cases hr.symm.trans hl
  · simp only [not_or, not_not, Bool.not_eq_true, Nat.not_lt] at hbad
    obtain ⟨hidle, hload, hlen⟩ := hbad
    exact (Host.Outcome.next.inj ((Session.load_accepted hidle hload hlen).symm.trans hl)).symm

/-- Settles O20: the cells are those of the bytes placed from address 0 on. -/
theorem loadPlacesProgram : Obligations.LoadPlacesProgram := by
  refine fun h bytes => ⟨fun hidle hload hlen hwf => ?_, Session.load_refused⟩
  refine ⟨_, Session.load_accepted hidle hload hlen, rfl, rfl, fun a => ?_⟩
  rw [State.withMem_mem, Memory.read_place 0 a bytes hwf (by simpa using hlen)]
  simp

/-! ## The invariant -/

/-- The invariant asks of memory its canonical form alone. -/
theorem State.Inv.withMem {s : State} {m : Memory} (h : s.Inv) (hm : m.wf) : (s.withMem m).Inv :=
  { h with mem_wf := hm }

theorem State.Inv.fault_none_of_ne {s : State} (h : s.Inv) (hs : s.status ≠ .faulted) : s.fault = none :=
  not_not.mp (mt h.fault_iff_faulted.mp hs)

/-- From Idle to Running: in neither is there a fault record or a `Shutdown` (R29, R30). -/
theorem State.Inv.run {s : State} (h : s.Inv) (hidle : s.status = .idle) :
    State.Inv { s with status := .running } :=
  { h with
    fault_iff_faulted := by simp [h.fault_none_of_ne (by simp [hidle])]
    shutdown_iff_halted := by simp [h.shutdown_iff_halted, hidle] }

/-- Settles O17: `load` replaces memory by a canonical one, and `run` leaves Idle for Running. -/
theorem hostCommandsKeepInv : Obligations.HostCommandsKeepInv := by
  refine ⟨fun h h' bytes hinv hl => ?_, fun s t hinv hrun => ?_⟩
  · rw [Session.load_eq_next hl]
    exact hinv.withMem (Memory.place_wf 0 bytes hinv.mem_wf)
  · by_cases hidle : s.status = .idle
    · cases (runCommand_idle hidle).symm.trans hrun
      exact hinv.run hidle
    · cases (runCommand_not_idle hidle).symm.trans hrun

/-! ## Nothing loaded -/

/-- A running machine that finds an illegal opcode at the pc takes the fault (R66, R88). -/
theorem step_illegal {s : State} (hrun : s.status = .running) (hpc : s.pc < 256)
    (hop : boundOp (s.mem.read s.pc) = none) :
    step s = .next (s.takeFault (.illegalInstruction (s.mem.read s.pc))) := by
  obtain ⟨-, -, -, -, hfault⟩ := illegalOpcodeFaults
  exact hfault s _ hrun hpc rfl hop

/-- Settles O22: a blank cell holds 0x00, which no instruction is bound to (R66, R220). -/
theorem emptyMemoryFaultsAtOnce : Obligations.EmptyMemoryFaultsAtOnce :=
  ⟨_, _, runCommand_idle rfl, step_illegal rfl (by decide) (by decide), rfl, State.result_faulted rfl rfl⟩

end Sys2Proof.Machine
end

section
/-! The forms of a program text's line (R216): what does not count, what is ignored and what is malformed.
The lines that are bytes stand with the program texts above. -/

namespace Sys2Proof.Machine

/-! ## What does not count -/

theorem parseLine_comment (line comment : List Char) :
    parseLine (line ++ '#' :: comment) = parseLine line :=
  parseLine_congr (by rw [stripComment_comment])

theorem parseLine_pad_of_no_comment {before line after : List Char} (hb : ∀ c ∈ before, c.isWhitespace = true)
    (ha : ∀ c ∈ after, c.isWhitespace = true) (hline : '#' ∉ line) :
    parseLine (before ++ line ++ after) = parseLine line := by
  have hwhole : '#' ∉ before ++ line ++ after := by
    simp [hline, hash_not_mem hb, hash_not_mem ha]
  apply parseLine_congr
  rw [stripComment_self hwhole, stripComment_self hline, stripSpaces_pad line hb ha]

/-- White space around a line does not count, be it before a comment, in it or after it. -/
theorem parseLine_pad {before after : List Char} (line : List Char)
    (hb : ∀ c ∈ before, c.isWhitespace = true) (ha : ∀ c ∈ after, c.isWhitespace = true) :
    parseLine (before ++ line ++ after) = parseLine line := by
  by_cases hline : '#' ∈ line
  · obtain ⟨l, comment, rfl, hl⟩ := List.eq_append_cons_of_mem hline
    calc parseLine (before ++ (l ++ '#' :: comment) ++ after)
      _ = parseLine (before ++ l ++ '#' :: (comment ++ after)) := by simp
      _ = parseLine (before ++ l ++ []) := by rw [parseLine_comment, List.append_nil]
      _ = parseLine l := parseLine_pad_of_no_comment hb nofun hl
      _ = parseLine (l ++ '#' :: comment) := (parseLine_comment l comment).symm
  · exact parseLine_pad_of_no_comment hb ha hline

/-! ## Ignored lines -/

theorem parseLine_blank {line : List Char} (h : ∀ c ∈ line, c.isWhitespace = true) :
    parseLine line = .ignored := by
  rw [parseLine, stripComment_self (hash_not_mem h), stripSpaces_blank h]

/-- What a line begins with, if it is no white space, is not stripped. -/
theorem stripSpaces_cons {c : Char} (hc : c.isWhitespace = false) (cs : List Char) :
    ∃ ds, stripSpaces (c :: cs) = c :: ds := by
  have hfront : (c :: cs).dropWhile Char.isWhitespace = c :: cs := by simp [hc]
  rw [stripSpaces, hfront, List.reverse_cons, List.dropWhile_append]
  split
  · exact ⟨[], by simp [hc]⟩
  · exact ⟨_, by rw [List.reverse_append]; rfl⟩

/-- A line that begins with no digit is ignored; one that begins with `#` is all comment. -/
theorem parseLine_other {c : Char} (h0 : c ≠ '0') (h1 : c ≠ '1') (hc : c.isWhitespace = false)
    (cs : List Char) : parseLine (c :: cs) = .ignored := by
  by_cases hhash : c = '#'
  · subst hhash
    exact parseLine_comment [] cs
  · have hcomment : stripComment (c :: cs) = c :: stripComment cs := by simp [stripComment, hhash]
    obtain ⟨ds, hds⟩ := stripSpaces_cons hc (stripComment cs)
    rw [parseLine, hcomment, hds]
    exact if_neg (not_or.mpr ⟨h0, h1⟩)

/-! ## Malformed lines -/

/-- A line of which nothing is stripped, and that begins with a digit, is malformed unless it is eight
digits. -/
theorem parseLine_malformed {c last : Char} {cs : List Char} (hc : c = '0' ∨ c = '1') (hcs : '#' ∉ cs)
    (hlast : (c :: cs).getLast? = some last) (hspace : last.isWhitespace = false)
    (hbad : (c :: cs).length ≠ 8 ∨ ∃ d ∈ cs, d ≠ '0' ∧ d ≠ '1') : parseLine (c :: cs) = .malformed := by
  have hcomment : '#' ∉ c :: cs := by rcases hc with rfl | rfl <;> simp [hcs]
  have hfront : c.isWhitespace = false := by rcases hc with rfl | rfl <;> rfl
  rw [parseLine, stripComment_self hcomment, stripSpaces_self hfront hlast hspace]
  refine (if_pos hc).trans ?_
  split
  · rename_i v hv
    refine if_neg (hbad.resolve_right fun ⟨d, hd, hne⟩ => ?_)
    rw [binaryValue_none ⟨d, .tail c hd, hne⟩] at hv
    cases hv
  · rfl

/-- Binary digits are malformed if they are neither none nor eight. -/
theorem parseLine_digits_malformed {ds : List Char} (hne : ds ≠ []) (hlen : ds.length ≠ 8)
    (hd : ∀ d ∈ ds, d = '0' ∨ d = '1') : parseLine ds = .malformed := by
  obtain ⟨c, cs, rfl⟩ := List.exists_cons_of_ne_nil hne
  have hcs : '#' ∉ cs := fun hm => by simpa using hd _ (.tail c hm)
  have hspace : ((c :: cs).getLast hne).isWhitespace = false := by
    rcases hd _ (List.getLast_mem hne) with h | h <;> rw [h] <;> rfl
  exact parseLine_malformed (hd c (.head _)) hcs (List.getLast?_eq_some_getLast hne) hspace (.inl hlen)

theorem length_binaryLiteral (b : Byte) : (binaryLiteral b).length = 8 := by simp [binaryLiteral]

/-- A byte's literal cut short is malformed. -/
theorem parseLine_take_binaryLiteral (b : Byte) {n : Nat} (h0 : 0 < n) (h8 : n < 8) :
    parseLine ((binaryLiteral b).take n) = .malformed := by
  have hlen : ((binaryLiteral b).take n).length = n := by
    rw [List.length_take, length_binaryLiteral, Nat.min_eq_left h8.le]
  refine parseLine_digits_malformed (fun hnil => ?_) (by omega)
    fun d hd => binaryLiteral_digits d (List.mem_of_mem_take hd)
  rw [hnil] at hlen
  exact h0.ne hlen

/-! ## Every form -/

/-- A byte's literal with a space and a comment after it is the byte. -/
theorem parseLine_binaryLiteral_comment (b : Byte) (comment : List Char) :
    parseLine (binaryLiteral b ++ ' ' :: '#' :: comment) = .byte b :=
  calc
    _ = parseLine (binaryLiteral b ++ [' '] ++ '#' :: comment) := by simp
    _ = parseLine ([] ++ binaryLiteral b ++ [' ']) := parseLine_comment _ comment
    _ = parseLine (binaryLiteral b) := parseLine_pad _ nofun (by simp)
    _ = .byte b := parseLine_binaryLiteral b

/-- Settles O24, form by form. -/
theorem loaderLineForms : Obligations.LoaderLineForms := by
  refine ⟨parseLine_binaryLiteral_comment, fun b _ => parseLine_take_binaryLiteral b,
    fun _ cs h0 h1 hc => parseLine_other h0 h1 hc cs, parseLine_comment, fun before line after h => ?_,
    fun _ hlen hd => parseLine_digits hlen hd (binaryValue_digits hd 0),
    fun _ _ _ => parseLine_malformed, fun _ => parseLine_blank⟩
  obtain ⟨hb, ha⟩ := List.forall_mem_append.mp h
  exact parseLine_pad line hb ha

end Sys2Proof.Machine
end
